-- ==== Sys2Proof/Word.lean ====
section
/-! DEFINITION. The word types of the CHIP-8 CORE (spec 00_scope.md R5, R7, R8: every value is an unsigned integer of a stated width). -/

namespace Sys2Proof

/-- A memory byte or general-register value, 8 bits unsigned (R8). -/
abbrev Byte := BitVec 8

/-- A 16-bit instruction word (30_encoding.md R80). -/
abbrev Word := BitVec 16

/-- A 16-bit address value: the program counter, the index register and a call-stack entry (R8). -/
abbrev Addr := BitVec 16

/-- The 12-bit address field `nnn` of an instruction word (30_encoding.md R81). -/
abbrev Addr12 := BitVec 12

/-- A general register's index 0..15, which a 4-bit field always names (10_state.md R21, R22). -/
abbrev RegIdx := Fin 16

/-- The index of VF, the flag register (00_scope.md R5 `FLAG_REG`, 10_state.md R24). -/
abbrev flagReg : RegIdx := 15

end Sys2Proof
end

