-- ==== Sys2Proof/Config.lean ====
section
/-! DEFINITION. The parameters of the machine (spec 00_scope.md R5), at the values this hardware has. -/

namespace Sys2Proof

/-- `ALU_ORDER`: in which order 8xy5, 8x06, 8xy7 and 8x0E write the flag and the result (44_alu.md R170, R181; D11). -/
inductive AluOrder where
  /-- The statements run in the order the opcode table lists them, flag first (R176 to R179). -/
  | asListed
  /-- Operands are read before any write and the flag is written last (R181). -/
  | latched
  deriving DecidableEq, Repr

/-- `ALU_ORDER` of this hardware (R5; spec decision D11, log 7). -/
def Config.aluOrder : AluOrder := .asListed

/-- `SHIFT_Y_DONT_CARE` of this hardware (R5; spec decision D10, log 6). -/
def Config.shiftYDontCare : Bool := false

/-- `MEM_SIZE` (R5): the number of addressable bytes. -/
def Config.memSize : Nat := 4096

/-- `MEM_MAX` (R5): the highest valid address. -/
def Config.memMax : Nat := 0xFFF

/-- `PROG_START` (R5): the reset value of the pc and the load address of the program. -/
def Config.progStart : Nat := 0x200

/-- `MAX_PROG` (R5): the length of the largest program image. -/
def Config.maxProg : Nat := 3584

/-- `STACK_DEPTH` (R5): the capacity of the call stack in entries. -/
abbrev Config.stackDepth : Nat := 16

/-- `VIDEO_W` (R5): the columns of the video buffer. -/
abbrev Config.videoW : Nat := 64

/-- `VIDEO_H` (R5): the rows of the video buffer. -/
abbrev Config.videoH : Nat := 32

/-- The default `cpu_hz` (R5, 60_exceptions.md R211). -/
def Config.cpuHz : Nat := 1000

/-- The default `timer_hz` (R5, 60_exceptions.md R211). -/
def Config.timerHz : Nat := 60

/-- The five bytes of each of the sixteen glyphs 0..F, top row first (20_memory.md R59).
PRESUMED: the spec takes the customary font from general knowledge (spec decision D9, log 4). -/
def Config.glyphs : List (List Byte) :=
  [[0xF0, 0x90, 0x90, 0x90, 0xF0], [0x20, 0x60, 0x20, 0x20, 0x70],
   [0xF0, 0x10, 0xF0, 0x80, 0xF0], [0xF0, 0x10, 0xF0, 0x10, 0xF0],
   [0x90, 0x90, 0xF0, 0x10, 0x10], [0xF0, 0x80, 0xF0, 0x10, 0xF0],
   [0xF0, 0x80, 0xF0, 0x90, 0xF0], [0xF0, 0x10, 0x20, 0x40, 0x40],
   [0xF0, 0x90, 0xF0, 0x90, 0xF0], [0xF0, 0x90, 0xF0, 0x10, 0xF0],
   [0xF0, 0x90, 0xF0, 0x90, 0x90], [0xE0, 0x90, 0xE0, 0x90, 0xE0],
   [0xF0, 0x80, 0x80, 0x80, 0xF0], [0xE0, 0x90, 0x90, 0x90, 0xE0],
   [0xF0, 0x80, 0xF0, 0x80, 0xF0], [0xF0, 0x80, 0xF0, 0x80, 0x80]]

/-- `GLYPH_TABLE` (R5, R59): 80 bytes, glyph g at offset 5·g. -/
def Config.glyphTable : List Byte := Config.glyphs.flatten

end Sys2Proof
end

