-- ==== Sys2Proof/Machine/OpcodeTable.lean ====
section
/-! DEFINITION. The opcode map of spec 30_encoding.md R84 as data: one mask and match per row, and when a word matches a row (R85). -/

namespace Sys2Proof

/-- One row of R84: its number, its mask (1 at every fixed bit) and its match (the value of the fixed bits). -/
structure OpcodeRow where
  row : Nat
  mask : Word
  value : Word
  deriving DecidableEq, Repr

/-- A word matches a row when `w & mask == match` (R85). -/
abbrev OpcodeRow.matchesWord (r : OpcodeRow) (w : Word) : Prop := w &&& r.mask = r.value

/-- The mask of rows 16 and 18: the y nibble is a fixed 0 unless `SHIFT_Y_DONT_CARE` (R84, D10). -/
def shiftMask (yDontCare : Bool) : Word := if yDontCare then 0xF00F#16 else 0xF0FF#16

/-- The 21 rows of R84, under a value of `SHIFT_Y_DONT_CARE`. -/
def opcodeTableWith (yDontCare : Bool) : List OpcodeRow :=
  [⟨1, 0xFFFF#16, 0x00E0#16⟩, ⟨2, 0xFFFF#16, 0x00EE#16⟩, ⟨3, 0xF000#16, 0x1000#16⟩, ⟨4, 0xF000#16, 0x2000#16⟩,
   ⟨5, 0xF000#16, 0x3000#16⟩, ⟨6, 0xF000#16, 0x4000#16⟩, ⟨7, 0xF00F#16, 0x5000#16⟩] ++
  [⟨8, 0xF000#16, 0x6000#16⟩, ⟨9, 0xF000#16, 0x7000#16⟩, ⟨10, 0xF00F#16, 0x8000#16⟩, ⟨11, 0xF00F#16, 0x8001#16⟩,
   ⟨12, 0xF00F#16, 0x8002#16⟩, ⟨13, 0xF00F#16, 0x8003#16⟩, ⟨14, 0xF00F#16, 0x8004#16⟩] ++
  [⟨15, 0xF00F#16, 0x8005#16⟩, ⟨16, shiftMask yDontCare, 0x8006#16⟩, ⟨17, 0xF00F#16, 0x8007#16⟩,
   ⟨18, shiftMask yDontCare, 0x800E#16⟩, ⟨19, 0xF00F#16, 0x9000#16⟩, ⟨20, 0xF000#16, 0xA000#16⟩,
   ⟨21, 0xF000#16, 0xB000#16⟩]

/-- The opcode table of this hardware. -/
def opcodeTable : List OpcodeRow := opcodeTableWith Config.shiftYDontCare

/-- A word is unmatched when it matches no row (R86). -/
abbrev isUnmatchedWord (w : Word) : Prop := ∀ r ∈ opcodeTable, ¬ r.matchesWord w

end Sys2Proof
end

