-- ==== Sys2Proof/Syntax.lean ====
section
/-! DEFINITION. The instructions: one constructor per row of the opcode table and one for unmatched words (spec 40_engine.md R113, 30_encoding.md R83, R84). -/

namespace Sys2Proof

/-- A decoded instruction, carrying only the operand fields it needs (R83, R113). -/
inductive Instr where
  /-- 00E0, clear the video buffer (R130). -/
  | cls
  /-- 00EE, return from subroutine (R131). -/
  | ret
  /-- 1nnn, jump (R132). -/
  | jp (nnn : Addr12)
  /-- 2nnn, call subroutine (R133). -/
  | call (nnn : Addr12)
  /-- 3xkk, skip if Vx equals the byte (R150). -/
  | seByte (x : RegIdx) (kk : Byte)
  /-- 4xkk, skip if Vx differs from the byte (R151). -/
  | sneByte (x : RegIdx) (kk : Byte)
  /-- 5xy0, skip if Vx equals Vy (R152). -/
  | seReg (x y : RegIdx)
  /-- 6xkk, load immediate (R160). -/
  | ldByte (x : RegIdx) (kk : Byte)
  /-- 7xkk, add immediate without a flag (R161). -/
  | addByte (x : RegIdx) (kk : Byte)
  /-- 8xy0, register copy (R171). -/
  | ldReg (x y : RegIdx)
  /-- 8xy1, bitwise OR (R172). -/
  | orReg (x y : RegIdx)
  /-- 8xy2, bitwise AND (R173). -/
  | andReg (x y : RegIdx)
  /-- 8xy3, bitwise exclusive OR (R174). -/
  | xorReg (x y : RegIdx)
  /-- 8xy4, add with carry out (R175). -/
  | addReg (x y : RegIdx)
  /-- 8xy5, Vx minus Vy (R176). -/
  | subReg (x y : RegIdx)
  /-- 8x06, shift right by one (R177). -/
  | shr (x : RegIdx)
  /-- 8xy7, Vy minus Vx (R178). -/
  | subnReg (x y : RegIdx)
  /-- 8x0E, shift left by one (R179). -/
  | shl (x : RegIdx)
  /-- 9xy0, skip if Vx differs from Vy (R153). -/
  | sneReg (x y : RegIdx)
  /-- Annn, load the index register (R162). -/
  | ldI (nnn : Addr12)
  /-- Bnnn, jump to V0 plus the address (R134). -/
  | jpV0 (nnn : Addr12)
  /-- Any word that matches no row: a no-op that advances the pc (R115). -/
  | unmatched (w : Word)
  deriving DecidableEq, Repr

/-- The number of the instruction's row in the table of R84; 22 stands for the unmatched space of R86. -/
def Instr.row : Instr → Nat
  | .cls => 1
  | .ret => 2
  | .jp _ => 3
  | .call _ => 4
  | .seByte _ _ => 5
  | .sneByte _ _ => 6
  | .seReg _ _ => 7
  | .ldByte _ _ => 8
  | .addByte _ _ => 9
  | .ldReg _ _ => 10
  | .orReg _ _ => 11
  | .andReg _ _ => 12
  | .xorReg _ _ => 13
  | .addReg _ _ => 14
  | .subReg _ _ => 15
  | .shr _ => 16
  | .subnReg _ _ => 17
  | .shl _ => 18
  | .sneReg _ _ => 19
  | .ldI _ => 20
  | .jpV0 _ => 21
  | .unmatched _ => 22

end Sys2Proof
end

