-- ==== Sys2Proof/Decode.lean ====
section
/-! DEFINITION. Decoding words and bytes (spec 30_encoding.md R80 to R88, 40_engine.md R112, R113), and the encoder written from the same table. -/

namespace Sys2Proof

/-! ## The fields of a word (R81) -/

/-- `op = w[15:12]`. -/
def opField (w : Word) : BitVec 4 := w.extractLsb' 12 4

/-- `x = w[11:8]`, a register index. -/
def xField (w : Word) : RegIdx := (w.extractLsb' 8 4).toFin

/-- `y = w[7:4]`, a register index. -/
def yField (w : Word) : RegIdx := (w.extractLsb' 4 4).toFin

/-- `n = w[3:0]`, the sub-opcode. -/
def nField (w : Word) : BitVec 4 := w.extractLsb' 0 4

/-- `kk = w[7:0]`, the immediate byte. -/
def kkField (w : Word) : Byte := w.extractLsb' 0 8

/-- `nnn = w[11:0]`, the address. -/
def nnnField (w : Word) : Addr12 := w.extractLsb' 0 12

/-! ## Decoding -/

/-- Decode of R113 under a value of `SHIFT_Y_DONT_CARE`: total on all 65536 words (R87). -/
def decodeWordWith (yDontCare : Bool) (w : Word) : Instr :=
  if w = 0x00E0#16 then .cls
  else if w = 0x00EE#16 then .ret
  else if opField w = 0x1#4 then .jp (nnnField w)
  else if opField w = 0x2#4 then .call (nnnField w)
  else if opField w = 0x3#4 then .seByte (xField w) (kkField w)
  else if opField w = 0x4#4 then .sneByte (xField w) (kkField w)
  else if opField w = 0x5#4 ∧ nField w = 0x0#4 then .seReg (xField w) (yField w)
  else if opField w = 0x6#4 then .ldByte (xField w) (kkField w)
  else if opField w = 0x7#4 then .addByte (xField w) (kkField w)
  else if opField w = 0x8#4 ∧ nField w = 0x0#4 then .ldReg (xField w) (yField w)
  else if opField w = 0x8#4 ∧ nField w = 0x1#4 then .orReg (xField w) (yField w)
  else if opField w = 0x8#4 ∧ nField w = 0x2#4 then .andReg (xField w) (yField w)
  else if opField w = 0x8#4 ∧ nField w = 0x3#4 then .xorReg (xField w) (yField w)
  else if opField w = 0x8#4 ∧ nField w = 0x4#4 then .addReg (xField w) (yField w)
  else if opField w = 0x8#4 ∧ nField w = 0x5#4 then .subReg (xField w) (yField w)
  else if opField w = 0x8#4 ∧ nField w = 0x6#4 ∧ (yField w = 0 ∨ yDontCare = true) then .shr (xField w)
  else if opField w = 0x8#4 ∧ nField w = 0x7#4 then .subnReg (xField w) (yField w)
  else if opField w = 0x8#4 ∧ nField w = 0xE#4 ∧ (yField w = 0 ∨ yDontCare = true) then .shl (xField w)
  else if opField w = 0x9#4 ∧ nField w = 0x0#4 then .sneReg (xField w) (yField w)
  else if opField w = 0xA#4 then .ldI (nnnField w)
  else if opField w = 0xB#4 then .jpV0 (nnnField w)
  else .unmatched w

/-- The decoder of this hardware (R113 with R5's `SHIFT_Y_DONT_CARE`). -/
def decodeWord (w : Word) : Instr := decodeWordWith Config.shiftYDontCare w

/-- Why a byte sequence is no instruction: the only way is to be shorter than one word (R80). -/
inductive DecodeError where
  /-- There is no byte at all. -/
  | empty
  /-- There is one byte only. -/
  | halfWord
  deriving DecidableEq, Repr

/-- The big-endian word of two bytes, the first being bits 15..8 (20_memory.md R54). -/
def wordOfBytes (hi lo : Byte) : Word := hi ++ lo

/-- The instruction at the head of a byte sequence, and the bytes after it (R54, R80). -/
def decodeBytes : List Byte → Except DecodeError (Instr × List Byte)
  | [] => .error .empty
  | [_] => .error .halfWord
  | hi :: lo :: rest => .ok (decodeWord (wordOfBytes hi lo), rest)

/-! ## Encoding -/

/-- The 4-bit field of a register index (R82). -/
def regBits (r : RegIdx) : BitVec 4 := BitVec.ofFin r

/-- A word of format `nnn` (R83). -/
def wordNnn (op : BitVec 4) (nnn : Addr12) : Word := op ++ nnn

/-- A word of format `xkk` (R83). -/
def wordXkk (op : BitVec 4) (x : RegIdx) (kk : Byte) : Word := op ++ regBits x ++ kk

/-- A word of format `xy` (R83), with its sub-opcode. -/
def wordXy (op : BitVec 4) (x y : RegIdx) (n : BitVec 4) : Word := op ++ regBits x ++ regBits y ++ n

/-- The word of an instruction, from the patterns of R84. -/
def encode : Instr → Word
  | .cls => 0x00E0#16
  | .ret => 0x00EE#16
  | .jp nnn => wordNnn 0x1#4 nnn
  | .call nnn => wordNnn 0x2#4 nnn
  | .seByte x kk => wordXkk 0x3#4 x kk
  | .sneByte x kk => wordXkk 0x4#4 x kk
  | .seReg x y => wordXy 0x5#4 x y 0x0#4
  | .ldByte x kk => wordXkk 0x6#4 x kk
  | .addByte x kk => wordXkk 0x7#4 x kk
  | .ldReg x y => wordXy 0x8#4 x y 0x0#4
  | .orReg x y => wordXy 0x8#4 x y 0x1#4
  | .andReg x y => wordXy 0x8#4 x y 0x2#4
  | .xorReg x y => wordXy 0x8#4 x y 0x3#4
  | .addReg x y => wordXy 0x8#4 x y 0x4#4
  | .subReg x y => wordXy 0x8#4 x y 0x5#4
  | .shr x => wordXy 0x8#4 x 0 0x6#4
  | .subnReg x y => wordXy 0x8#4 x y 0x7#4
  | .shl x => wordXy 0x8#4 x 0 0xE#4
  | .sneReg x y => wordXy 0x9#4 x y 0x0#4
  | .ldI nnn => wordNnn 0xA#4 nnn
  | .jpV0 nnn => wordNnn 0xB#4 nnn
  | .unmatched w => w

/-- The high byte of a word, which lies at the lower address (20_memory.md R54). -/
def highByte (w : Word) : Byte := w.extractLsb' 8 8

/-- The low byte of a word. -/
def lowByte (w : Word) : Byte := w.extractLsb' 0 8

/-- A word's two bytes in memory order (R54). -/
def bytesOfWord (w : Word) : List Byte := [highByte w, lowByte w]

/-- An instruction's two bytes in memory order. -/
def encodeBytes (i : Instr) : List Byte := bytesOfWord (encode i)

/-! ## The opcode table's own numbering -/

/-- The word whose bits, numbered as spec/opcode_table.json numbers them, are the low `nbits` bits of `w`. -/
def tableWord (nbits w : Nat) : Word := BitVec.ofNat 16 (w % 2 ^ nbits)

/-- The instruction the decoder reads from the bytes of a word given as the opcode table numbers it. -/
def decodeTableWord (nbits w : Nat) : Option Instr :=
  match decodeBytes (bytesOfWord (tableWord nbits w)) with
  | .ok (i, _) => some i
  | .error _ => none

end Sys2Proof
end

