-- ==== Sys2Proof/Machine/Memory.lean ====
section
/-! DEFINITION. The memory array (spec 20_memory.md R50, R51, R57, R59) as a list of (address, byte) pairs in one canonical form: addresses strictly rising, all in 0x000..0xFFF, and no entry equal to what an unlisted address reads as. -/

namespace Sys2Proof.Machine

/-- The listed bytes: those that differ from the contents the array has after construction. -/
abbrev Memory := List Host.Cell

/-- What an unlisted address reads as: the contents after construction, the glyph table at 0x000..0x04F
(R59, bytes: log 4) and 0x00 elsewhere (R50, spec decision D8: log 5). -/
def Memory.resetByte (a : Nat) : Byte := Config.glyphTable.getD a 0

/-- The byte at an address. -/
def Memory.byteAt : Memory → Nat → Byte
  | [], a => Memory.resetByte a
  | (a', b) :: rest, a => if a = a' then b else Memory.byteAt rest a

/-- The entry for one byte, left out when it equals what an unlisted address reads as. -/
def Memory.entry (a : Nat) (b : Byte) : Memory := if b = Memory.resetByte a then [] else [(a, b)]

/-- Write one byte, keeping the canonical form. -/
def Memory.put : Memory → Nat → Byte → Memory
  | [], a, b => Memory.entry a b
  | (a', b') :: rest, a, b =>
    if a < a' then Memory.entry a b ++ (a', b') :: rest
    else if a = a' then Memory.entry a b ++ rest
    else (a', b') :: Memory.put rest a b

/-- Write a sequence of bytes at rising addresses from `start`: the loop of `MemWriteBulk` (R57). -/
def Memory.putAll : Memory → Nat → List Byte → Memory
  | m, _, [] => m
  | m, start, b :: bs => Memory.putAll (Memory.put m start b) (start + 1) bs

/-- The canonical form. -/
abbrev Memory.wf (m : Memory) : Prop :=
  m.Pairwise (fun p q => p.1 < q.1) ∧ ∀ p ∈ m, p.1 ≤ Config.memMax ∧ p.2 ≠ Memory.resetByte p.1

end Sys2Proof.Machine
end

