-- ==== Sys2Proof/Machine/Rates.lean ====
section
/-! DEFINITION. What the run loop computes once from its two rates (spec 60_exceptions.md R211, R215). -/

namespace Sys2Proof.Machine

/-- `cpt`: the exact rational ceiling of `cpu_hz / timer_hz` (R211, spec decision D12). -/
def cyclesPerTick (cpuHz timerHz : Nat) : Nat := (cpuHz + timerHz - 1) / timerHz

/-- A length of time in seconds, as a fraction. -/
structure Seconds where
  num : Nat
  den : Nat
  deriving DecidableEq, Repr

/-- `per_instruction_delay = 1 / cpu_hz` seconds (R211); no rule depends on it (R259). -/
def instructionDelay (cpuHz : Nat) : Seconds := ⟨1, cpuHz⟩

/-- A configuration is refused when a rate is 0 (R215, spec decision D12). -/
abbrev configInvalid (cpuHz timerHz : Nat) : Prop := cpuHz = 0 ∨ timerHz = 0

end Sys2Proof.Machine
end

