-- ==== Sys2Proof/Machine/State.lean ====
section
/-! DEFINITION. The state of the CORE block (spec 10_state.md R20 to R35), its fault records (60_exceptions.md R201), and the state after reset (70_reset_and_hazards.md R250, R251). -/

namespace Sys2Proof.Machine

/-- A fault kind with the information it records (60_exceptions.md R201). -/
inductive FaultRecord where
  /-- RET with an empty stack; records the pc of the RET. -/
  | execStackUnderflow (pc : Addr)
  /-- CALL with a full stack; records the pc of the CALL. -/
  | execStackOverflow (pc : Addr)
  /-- A fetched byte's address is above 0xFFF; records that address, a natural number (20_memory.md R53). -/
  | execMemBounds (addr : Nat)
  /-- The program image is missing or unreadable. -/
  | resImageMissing
  /-- The program image is longer than 3584 bytes; records its length. -/
  | resImageTooLarge (length : Nat)
  /-- A bulk write beyond the capacity; records its start and length. -/
  | resWriteBeyondCapacity (start length : Nat)
  /-- A rate is 0; records the two rates. -/
  | configInvalid (cpuHz timerHz : Nat)
  deriving DecidableEq, Repr

/-- Why a step has no next state. -/
inductive Fault where
  /-- Raised by `step` on a halted state, and by nothing else: a halted block has no step (40_engine.md R116).
  It carries the state's fault record. Safe: nothing can be proved of a state after it. -/
  | halted (why : Option FaultRecord)
  deriving DecidableEq, Repr

/-- Why an instruction is given no meaning. -/
inductive Refusal where
  /-- Raised by `exec` for an instruction that has no meaning yet; no arm of this model raises it. Safe. -/
  | notModelled (mnemonic : String)
  deriving DecidableEq, Repr

/-- The complete state of the block and its collaborators (R20, R31). -/
structure State where
  /-- The register file V0..VF (R21). -/
  V : Vector Byte 16
  /-- The program counter (R25). -/
  pc : Addr
  /-- The index register (R27). -/
  I : Addr
  /-- The call stack's sixteen entries (R28). -/
  stack : Vector Addr 16
  /-- How many entries the call stack holds, 0..16 (R28). -/
  sp : Fin 17
  /-- The memory array (20_memory.md R50). -/
  mem : Memory
  /-- The delay counter (R30). -/
  delay : Byte
  /-- The sound counter (R30). -/
  sound : Byte
  /-- The video buffer, `video[column][row]`; true is lit (R32). -/
  video : Vector (Vector Bool 32) 64
  /-- How many iterations have passed since the last counter tick, in 0..cpt (R31). -/
  cycleCounter : Nat
  /-- `cycles_per_tick`, constant for a run (R31). -/
  cpt : Nat
  /-- `per_instruction_delay`, constant for a run (R31). -/
  perInstructionDelay : Seconds
  /-- Whether a fault has been raised (R33). -/
  halted : Bool
  /-- The fault raised, with its information (R33). -/
  fault : Option FaultRecord
  deriving DecidableEq, Repr

/-- A video buffer with every cell unlit (R32). -/
abbrev clearVideo : Vector (Vector Bool 32) 64 := Vector.replicate 64 (Vector.replicate 32 false)

/-- The machine right after reset with the default rates and no program bytes (R250, R251).
The pc, the cycle counter, the glyph table's place and the empty stack are the document's; every other value is
the spec's own decision (D7, D8, D9; logs 1, 3, 4, 5). -/
def State.reset : State where
  V := Vector.replicate 16 0
  pc := BitVec.ofNat 16 Config.progStart
  I := 0
  stack := Vector.replicate 16 0
  sp := 0
  mem := []
  delay := 0
  sound := 0
  video := clearVideo
  cycleCounter := 0
  cpt := cyclesPerTick Config.cpuHz Config.timerHz
  perInstructionDelay := instructionDelay Config.cpuHz
  halted := false
  fault := none

end Sys2Proof.Machine
end

