-- ==== Sys2Proof/Machine/Ops.lean ====
section
/-! DEFINITION. The named operations every rule uses (spec 00_scope.md R10): registers, pc outcomes, call stack, memory, video buffer, counters, and raising a fault. -/

namespace Sys2Proof.Machine

/-! ## Registers (10_state.md R21, R24, R27) -/

/-- `V[r]`. -/
def State.readV (s : State) (r : RegIdx) : Byte := s.V[r.val]

/-- `V[r] <- b`. -/
def State.writeV (s : State) (r : RegIdx) (b : Byte) : State := { s with V := s.V.set r.val b }

/-- `I <- a`. -/
def State.writeI (s : State) (a : Addr) : State := { s with I := a }

/-! ## The three pc outcomes (40_engine.md R114) -/

/-- `advance`: `pc <- (pc + 2) mod 2^16`. -/
def advance (s : State) : State := { s with pc := s.pc + 2 }

/-- `skip`: `pc <- (pc + 4) mod 2^16`. -/
def skip (s : State) : State := { s with pc := s.pc + 4 }

/-- `jump(t)`: `pc <- t`, without alignment or range check (R118). -/
def jump (t : Addr) (s : State) : State := { s with pc := t }

/-- Skip when the condition holds, advance otherwise (42_skips.md). -/
def skipIf (c : Bool) (s : State) : State := if c then skip s else advance s

/-! ## Faults (60_exceptions.md R202, R203) -/

/-- `raise Fault(kind, info)`: the fault entry sets `halted` and `fault` and changes nothing else; control goes
nowhere, and no step leaves the state reached (R116). -/
def raiseFault (r : FaultRecord) (s : State) : State := { s with halted := true, fault := some r }

/-- The fault codes of R201; they are labels, no rule depends on them (spec decision D7). -/
def FaultRecord.code : FaultRecord → Nat
  | .execStackUnderflow _ => 1
  | .execStackOverflow _ => 2
  | .execMemBounds _ => 3
  | .resImageMissing => 16
  | .resImageTooLarge _ => 17
  | .resWriteBeyondCapacity _ _ => 18
  | .configInvalid _ _ => 32

/-- The class of R200: a Resource Fault arises before the first step, an Execution Fault during a step. -/
def FaultRecord.isResource : FaultRecord → Bool
  | .execStackUnderflow _ => false
  | .execStackOverflow _ => false
  | .execMemBounds _ => false
  | .resImageMissing => true
  | .resImageTooLarge _ => true
  | .resWriteBeyondCapacity _ _ => true
  | .configInvalid _ _ => true

/-! ## The call stack (41_system_control.md R135, R136) -/

/-- `Push(v)`; none when its precondition `sp < 16` fails. -/
def push (v : Addr) (s : State) : Option State :=
  if h : s.sp.val < Config.stackDepth then
    some { s with stack := s.stack.set s.sp.val v h, sp := ⟨s.sp.val + 1, Nat.succ_lt_succ h⟩ }
  else none

/-- `Pop()`, with the state it leaves; none when its precondition `sp > 0` fails. The popped entry keeps its value
(10_state.md R29). -/
def pop (s : State) : Option (Addr × State) :=
  if h : 0 < s.sp.val then
    some (s.stack[s.sp.val - 1], { s with sp := ⟨s.sp.val - 1, by omega⟩ })
  else none

/-! ## The video buffer (60_exceptions.md R218) -/

/-- `VideoClear()`: every cell becomes unlit. -/
def videoClear (s : State) : State := { s with video := clearVideo }

/-! ## Memory (20_memory.md R53, R57) -/

/-- `MemRead(a, 1)` on a natural-number address: a byte, or the bounds fault above 0xFFF (spec decision D5). -/
def memRead (s : State) (a : Nat) : Except FaultRecord Byte :=
  if a > Config.memMax then .error (.execMemBounds a) else .ok (s.mem.byteAt a)

/-- `MemWriteBulk(bytes, start)`: the capacity is checked before any byte is written (spec decision D15). -/
def memWriteBulk (bytes : List Byte) (start : Nat) (m : Memory) : Except FaultRecord Memory :=
  if start + bytes.length > Config.memSize then .error (.resWriteBeyondCapacity start bytes.length)
  else .ok (m.putAll start bytes)

/-- `Fetch()`: the bytes at `pc` and `pc + 1`, addresses computed without wrap-around, combined big-endian
(40_engine.md R111; the order of the two checks is 60_exceptions.md R205). -/
def fetch (s : State) : Except FaultRecord Word :=
  match memRead s s.pc.toNat with
  | .error r => .error r
  | .ok hi =>
    match memRead s (s.pc.toNat + 1) with
    | .error r => .error r
    | .ok lo => .ok (wordOfBytes hi lo)

/-- A word's two bytes stored where the next fetch reads them. Where the pc is not fetchable (pc + 1 above 0xFFF)
there is no place for them and the state is left as it is (log 15). -/
def storeFetchWord (s : State) (w : Word) : State :=
  if s.pc.toNat + 1 > Config.memMax then s
  else { s with mem := s.mem.putAll s.pc.toNat (bytesOfWord w) }

/-! ## Counters and run-loop state (60_exceptions.md R209, R212) -/

/-- `Dec(c)`: subtract 1 with a floor of 0 (R209). -/
def dec (c : Byte) : Byte := if c = 0 then 0 else c - 1

/-- The counter tick at the head of an iteration, taken when `cycle_counter = cpt` (R212). -/
def tickIfDue (s : State) : State :=
  if s.cycleCounter = s.cpt then { s with delay := dec s.delay, sound := dec s.sound, cycleCounter := 0 } else s

/-- `cycle_counter <- cycle_counter + 1` at the end of a completed iteration (R212). -/
def countCycle (s : State) : State := { s with cycleCounter := s.cycleCounter + 1 }

end Sys2Proof.Machine
end

