-- ==== Sys2Proof/Machine/Flags.lean ====
section
/-! DEFINITION. The flag values of VF (spec 10_state.md R24, 44_alu.md R175 to R179) and the order in which an instruction writes its flag and its result (R170, R181). -/

namespace Sys2Proof.Machine

/-- A condition as the byte VF holds: 1 or 0. -/
def flagByte (c : Bool) : Byte := if c then 1 else 0

/-- The carry of 8xy4: 1 when the 9-bit sum exceeds 255 (R175). -/
def carryFlag (a b : Byte) : Byte := flagByte (decide (a.toNat + b.toNat > 255))

/-- The flag of 8xy5 and 8xy7: 1 when `a > b` strictly, as unsigned values; equal operands give 0 (R176, R178, C6). -/
def greaterFlag (a b : Byte) : Byte := flagByte (decide (a.toNat > b.toNat))

/-- The flag of 8x06: the low bit before the shift, `a & 0x01` (R177). -/
def lowBitFlag (a : Byte) : Byte := a &&& 0x01

/-- The flag of 8x0E: the high bit before the shift, `(a & 0x80) >> 7` (R179). -/
def highBitFlag (a : Byte) : Byte := (a &&& 0x80) >>> 7

/-- Write a flag to VF and a result to `V[x]`, in the order a value of `ALU_ORDER` gives (R170, R181). Both are
functions of the register file: in the order `asListed` the result reads it after the flag write; in the order
`latched` both read it before any write, and the flag is written last. -/
def writeFlagAndResult (order : AluOrder) (x : RegIdx) (flag result : State → Byte) (s : State) : State :=
  match order with
  | .asListed =>
    let s1 := s.writeV flagReg (flag s)
    s1.writeV x (result s1)
  | .latched => (s.writeV x (result s)).writeV flagReg (flag s)

end Sys2Proof.Machine
end

