-- ==== Sys2Proof/Machine/Operands.lean ====
section
/-! DEFINITION. Operand assembly (spec 30_encoding.md R82) and the address computations of the control transfers (41_system_control.md R138). The operand forms are: a register `V[x]` or `V[y]` (`State.readV`), the byte `kk` as it stands, and the address `nnn` below. -/

namespace Sys2Proof.Machine

/-- `zext_16(nnn)`: the 12-bit address zero-extended to 16 bits (R82). -/
def addrOperand (nnn : Addr12) : Addr := nnn.setWidth 16

/-- `zext_16(V[0]) + zext_16(nnn)` of Bnnn: the register is always V0 and the sum is not reduced mod 0x1000 (R134). -/
def offsetTarget (nnn : Addr12) (s : State) : Addr := (s.readV 0).setWidth 16 + addrOperand nnn

/-- The return address CALL pushes: `pc + 2`, pc being the CALL's own address (R133, 40_engine.md R117). -/
def returnAddress (s : State) : Addr := s.pc + 2

end Sys2Proof.Machine
end

