-- ==== Sys2Proof/Machine/Alu.lean ====
section
/-! DEFINITION. The ALU instructions 8xy0 to 8x0E (spec 44_alu.md R171 to R179). -/

namespace Sys2Proof.Machine

/-- LD Vx, Vy, 8xy0 (R171). -/
def execLdReg (x y : RegIdx) (s : State) : Host.Outcome State Fault Refusal :=
  .next (advance (s.writeV x (s.readV y)))

/-- OR Vx, Vy, 8xy1 (R172). -/
def execOrReg (x y : RegIdx) (s : State) : Host.Outcome State Fault Refusal :=
  .next (advance (s.writeV x (s.readV x ||| s.readV y)))

/-- AND Vx, Vy, 8xy2 (R173). -/
def execAndReg (x y : RegIdx) (s : State) : Host.Outcome State Fault Refusal :=
  .next (advance (s.writeV x (s.readV x &&& s.readV y)))

/-- XOR Vx, Vy, 8xy3 (R174). -/
def execXorReg (x y : RegIdx) (s : State) : Host.Outcome State Fault Refusal :=
  .next (advance (s.writeV x (s.readV x ^^^ s.readV y)))

/-- ADD Vx, Vy, 8xy4 (R175): the sum is taken before either write and the flag is written last, under both values
of `ALU_ORDER`. -/
def execAddReg (x y : RegIdx) (s : State) : Host.Outcome State Fault Refusal :=
  .next (advance (writeFlagAndResult .latched x (fun s => carryFlag (s.readV x) (s.readV y))
    (fun s => s.readV x + s.readV y) s))

/-- The writes of 8xy5 under a value of `ALU_ORDER` (R176, R181). -/
def subWrites (order : AluOrder) (x y : RegIdx) (s : State) : State :=
  writeFlagAndResult order x (fun s => greaterFlag (s.readV x) (s.readV y)) (fun s => s.readV x - s.readV y) s

/-- The writes of 8x06 under a value of `ALU_ORDER` (R177, R181); the shift is logical (C3). -/
def shrWrites (order : AluOrder) (x : RegIdx) (s : State) : State :=
  writeFlagAndResult order x (fun s => lowBitFlag (s.readV x)) (fun s => s.readV x >>> 1) s

/-- The writes of 8xy7 under a value of `ALU_ORDER` (R178, R181). -/
def subnWrites (order : AluOrder) (x y : RegIdx) (s : State) : State :=
  writeFlagAndResult order x (fun s => greaterFlag (s.readV y) (s.readV x)) (fun s => s.readV y - s.readV x) s

/-- The writes of 8x0E under a value of `ALU_ORDER` (R179, R181). -/
def shlWrites (order : AluOrder) (x : RegIdx) (s : State) : State :=
  writeFlagAndResult order x (fun s => highBitFlag (s.readV x)) (fun s => s.readV x <<< 1) s

/-- SUB Vx, Vy, 8xy5 (R176). -/
def execSubReg (x y : RegIdx) (s : State) : Host.Outcome State Fault Refusal :=
  .next (advance (subWrites Config.aluOrder x y s))

/-- SHR Vx, 8x06 (R177). -/
def execShr (x : RegIdx) (s : State) : Host.Outcome State Fault Refusal :=
  .next (advance (shrWrites Config.aluOrder x s))

/-- SUBN Vx, Vy, 8xy7 (R178). -/
def execSubnReg (x y : RegIdx) (s : State) : Host.Outcome State Fault Refusal :=
  .next (advance (subnWrites Config.aluOrder x y s))

/-- SHL Vx, 8x0E (R179). -/
def execShl (x : RegIdx) (s : State) : Host.Outcome State Fault Refusal :=
  .next (advance (shlWrites Config.aluOrder x s))

end Sys2Proof.Machine
end

