-- ==== Sys2Proof/Machine/Control.lean ====
section
/-! DEFINITION. The system and control-transfer instructions 00E0, 00EE, 1nnn, 2nnn, Bnnn (spec 41_system_control.md R130 to R134) and the unmatched no-op (40_engine.md R115). -/

namespace Sys2Proof.Machine

/-- CLS, 00E0 (R130). -/
def execCls (s : State) : Host.Outcome State Fault Refusal := .next (advance (videoClear s))

/-- RET, 00EE (R131): the underflow check precedes the pop. -/
def execRet (s : State) : Host.Outcome State Fault Refusal :=
  match pop s with
  | none => .next (raiseFault (.execStackUnderflow s.pc) s)
  | some (t, s') => .next (jump t s')

/-- JP addr, 1nnn (R132). -/
def execJp (nnn : Addr12) (s : State) : Host.Outcome State Fault Refusal := .next (jump (addrOperand nnn) s)

/-- CALL addr, 2nnn (R133): the overflow check precedes the push. -/
def execCall (nnn : Addr12) (s : State) : Host.Outcome State Fault Refusal :=
  match push (returnAddress s) s with
  | none => .next (raiseFault (.execStackOverflow s.pc) s)
  | some s' => .next (jump (addrOperand nnn) s')

/-- JP V0, addr, Bnnn (R134). -/
def execJpV0 (nnn : Addr12) (s : State) : Host.Outcome State Fault Refusal := .next (jump (offsetTarget nnn s) s)

/-- A word that matches no row (R115). -/
def execUnmatched (_w : Word) (s : State) : Host.Outcome State Fault Refusal := .next (advance s)

end Sys2Proof.Machine
end

