-- ==== Sys2Proof/Machine/Loads.lean ====
section
/-! DEFINITION. The immediate load and add instructions 6xkk, 7xkk, Annn (spec 43_loads.md R160 to R162). -/

namespace Sys2Proof.Machine

/-- LD Vx, byte, 6xkk (R160). -/
def execLdByte (x : RegIdx) (kk : Byte) (s : State) : Host.Outcome State Fault Refusal :=
  .next (advance (s.writeV x kk))

/-- ADD Vx, byte, 7xkk (R161): modulo 256, and no flag. -/
def execAddByte (x : RegIdx) (kk : Byte) (s : State) : Host.Outcome State Fault Refusal :=
  .next (advance (s.writeV x (s.readV x + kk)))

/-- LD I, addr, Annn (R162). -/
def execLdI (nnn : Addr12) (s : State) : Host.Outcome State Fault Refusal :=
  .next (advance (s.writeI (addrOperand nnn)))

end Sys2Proof.Machine
end

