-- ==== Sys2Proof/Machine/Skips.lean ====
section
/-! DEFINITION. The conditional-skip instructions 3xkk, 4xkk, 5xy0, 9xy0 (spec 42_skips.md R150 to R153). -/

namespace Sys2Proof.Machine

/-- SE Vx, byte, 3xkk (R150). -/
def execSeByte (x : RegIdx) (kk : Byte) (s : State) : Host.Outcome State Fault Refusal :=
  .next (skipIf (decide (s.readV x = kk)) s)

/-- SNE Vx, byte, 4xkk (R151). -/
def execSneByte (x : RegIdx) (kk : Byte) (s : State) : Host.Outcome State Fault Refusal :=
  .next (skipIf (decide (s.readV x ≠ kk)) s)

/-- SE Vx, Vy, 5xy0 (R152). -/
def execSeReg (x y : RegIdx) (s : State) : Host.Outcome State Fault Refusal :=
  .next (skipIf (decide (s.readV x = s.readV y)) s)

/-- SNE Vx, Vy, 9xy0 (R153). -/
def execSneReg (x y : RegIdx) (s : State) : Host.Outcome State Fault Refusal :=
  .next (skipIf (decide (s.readV x ≠ s.readV y)) s)

end Sys2Proof.Machine
end

