-- ==== Sys2Proof/Machine/RunLoop.lean ====
section
/-! DEFINITION. The engine step (spec 40_engine.md R110) and the run-loop iteration that calls it (60_exceptions.md R212). -/

namespace Sys2Proof.Machine

/-- `EngineStep()`: fetch, decode, dispatch, apply (R110). A fetch that faults raises its fault (R111). -/
def engineStep (s : State) : Host.Outcome State Fault Refusal :=
  match fetch s with
  | .error r => .next (raiseFault r s)
  | .ok w => exec (decodeWord w) s

/-- The end of an iteration: a completed step is counted, a faulting step is not (R212, R213). -/
def endIteration (s : State) : State := if s.halted then s else countCycle s

/-- `RunLoopIteration()`: the counter tick if it is due, one engine step, and the count, in one transition
(R212; spec decision D22, log 12). The sleep changes no state (R221, log 13). A halted block has none (R116). -/
def runLoopIteration (s : State) : Host.Outcome State Fault Refusal :=
  if s.halted then .fault (.halted s.fault)
  else
    match engineStep (tickIfDue s) with
    | .next t => .next (endIteration t)
    | .fault f => .fault f
    | .refused r => .refused r

end Sys2Proof.Machine
end

