-- ==== Sys2Proof/Machine/Step.lean ====
section
/-! DEFINITION. One step of the machine is one run-loop iteration (spec 60_exceptions.md R212), and how one instruction word is placed for the next step. -/

namespace Sys2Proof.Machine

/-- One step: one run-loop iteration. -/
def step (s : State) : Host.Outcome State Fault Refusal := runLoopIteration s

/-- The state with one instruction word stored where the next step fetches: at pc and pc + 1, high byte first. It
stands for the load of a program from outside the machine (70_reset_and_hazards.md R252, log 15). -/
def State.withFetchWord (s : State) (nbits w : Nat) : State := storeFetchWord s (tableWord nbits w)

end Sys2Proof.Machine
end

