-- ==== Sys2Proof/Machine/Boot.lean ====
section
/-! DEFINITION. Construction, program load and the whole reset sequence with its configuration (spec 70_reset_and_hazards.md R250 to R253, 60_exceptions.md R211, R215, R219). -/

namespace Sys2Proof.Machine

/-- Construction's memory: 0x00 and then the glyph preload at offset 0, before any other write (20_memory.md R59). With
nothing listed the array already reads so; the preload is made all the same, as R250 lists it. -/
def constructMemory : Except FaultRecord Memory := memWriteBulk Config.glyphTable 0 []

/-- `Load(image)`: none is a missing or unreadable image (R252, R253). An empty image is accepted (spec decision D25). -/
def loadImage (image : Option (List Byte)) (m : Memory) : Except FaultRecord Memory :=
  match image with
  | none => .error .resImageMissing
  | some bytes =>
    if bytes.length > Config.maxProg then .error (.resImageTooLarge bytes.length)
    else memWriteBulk bytes Config.progStart m

/-- Steps 2 and 4 of R250, in this order. -/
def bootMemory (image : Option (List Byte)) : Except FaultRecord Memory :=
  match constructMemory with
  | .error r => .error r
  | .ok m => loadImage image m

/-- `Reset(cpu_hz, timer_hz, image)` (R250). A fault of step 1 or 4 ends the run before any instruction executes: the
state answered is halted with that fault, its other fields at their reset values (log 2). -/
def boot (cpuHz timerHz : Nat) (image : Option (List Byte)) : State :=
  if configInvalid cpuHz timerHz then raiseFault (.configInvalid cpuHz timerHz) State.reset
  else
    match bootMemory image with
    | .error r => raiseFault r State.reset
    | .ok m => { State.reset with
        mem := m, cpt := cyclesPerTick cpuHz timerHz, perInstructionDelay := instructionDelay cpuHz }

end Sys2Proof.Machine
end

