-- ==== Sys2Proof/Safety.lean ====
section
/-! DEFINITION. What claims about runs are stated in: a run that has raised no fault (spec 70_reset_and_hazards.md R261), and the invariant that the reachable states meet. -/

namespace Sys2Proof

open Machine

/-- `n` completed iterations lead from `s` to `t` and none raised a fault. Cutting a run off after `n` iterations is
also what the host's kill does (60_exceptions.md R219, R261). -/
def SafeRun (n : Nat) (s t : State) : Prop := Host.Core.run core n s = .next t ∧ t.halted = false

/-- The facts every reachable state has. Beside the canonical form of memory: the cycle counter stays in 0..cpt and cpt is at
least 1 (10_state.md R31); a fault is recorded exactly when the block is halted (R33); I holds a 12-bit value (R27); a
live stack entry is at most 0x1000 and the pc at most 0x10FE, so that no increment ever wraps (40_engine.md R114). -/
structure Inv (s : State) : Prop where
  memory : s.mem.wf
  counter : s.cycleCounter ≤ s.cpt
  tickPeriod : 1 ≤ s.cpt
  faultStatus : s.halted = s.fault.isSome
  index : s.I.toNat ≤ 0xFFF
  entries : ∀ k : Fin 16, k.val < s.sp.val → (s.stack[k.val]).toNat ≤ 0x1000
  counterReach : s.pc.toNat ≤ 0x10FE

end Sys2Proof
end

