-- ==== Sys2Proof/Certificates/Slice0/Obligations.lean ====
section
/-! DEFINITION. The statements for the provers. Each docstring names the rule or section of spec/ it formalises, and the spec's own decision (D<n>, with the log entry) where it rests on one. -/

open Sys2Proof Sys2Proof.Machine

/-! ## Vocabulary of the statements: frames and expected values, in the spec's terms -/

namespace Sys2Proof.Claims

/-- Every register reads as before. -/
def SameRegisters (s t : State) : Prop := ∀ r : RegIdx, t.readV r = s.readV r

/-- Every byte of memory, at every address, reads as before. -/
def SameMemory (s t : State) : Prop := ∀ a : Nat, t.mem.byteAt a = s.mem.byteAt a

/-- Nothing but the pc differs. -/
def OnlyPc (s t : State) : Prop := t = { s with pc := t.pc } ∧ SameRegisters s t ∧ SameMemory s t

/-- Nothing but registers and the pc differs. -/
def OnlyRegistersAndPc (s t : State) : Prop := t = { s with V := t.V, pc := t.pc } ∧ SameMemory s t

/-- `V[x]` becomes `b`, every other register stays, the pc advances, and nothing else differs. -/
def WritesOneRegister (x : RegIdx) (b : Byte) (s t : State) : Prop :=
  t.readV x = b ∧ (∀ r : RegIdx, r ≠ x → t.readV r = s.readV r) ∧ t.pc = s.pc + 2 ∧ OnlyRegistersAndPc s t

/-- The condition decides between skip and advance, and nothing but the pc differs. -/
def SkipsWhen (c : Prop) (s t : State) : Prop :=
  (c → t.pc = s.pc + 4) ∧ (¬ c → t.pc = s.pc + 2) ∧ OnlyPc s t

/-- The value of a register as the second statement of a flag-first instruction reads it: the flag `f` for VF, the
old value for any other register. -/
def afterFlag (f : Nat) (r : RegIdx) (s : State) : Nat := if r = flagReg then f else (s.readV r).toNat

/-- `V[x]` ends as `res`, VF as `f` unless x = 15, every other register stays, the pc advances, and nothing else
differs. -/
def FlagThenResult (x : RegIdx) (f res : Nat) (s t : State) : Prop :=
  (t.readV x).toNat = res ∧ (x ≠ flagReg → (t.readV flagReg).toNat = f) ∧
  (∀ r : RegIdx, r ≠ x → r ≠ flagReg → t.readV r = s.readV r) ∧ t.pc = s.pc + 2 ∧ OnlyRegistersAndPc s t

/-- A fault was entered: `halted` and `fault` are set and nothing else differs. -/
def FaultEntered (r : FaultRecord) (s t : State) : Prop :=
  t = { s with halted := true, fault := some r } ∧ SameRegisters s t ∧ SameMemory s t

/-- The live entries of the call stack, the oldest first (10_state.md R28, R29). -/
def liveStack (s : State) : List Addr := s.stack.toList.take s.sp.val

/-- The registers an instruction writes (the table of 10_state.md R23). -/
def writtenRegisters : Instr → List RegIdx
  | .ldByte x _ => [x]
  | .addByte x _ => [x]
  | .ldReg x _ => [x]
  | .orReg x _ => [x]
  | .andReg x _ => [x]
  | .xorReg x _ => [x]
  | .addReg x _ => [x, flagReg]
  | .subReg x _ => [x, flagReg]
  | .shr x => [x, flagReg]
  | .subnReg x _ => [x, flagReg]
  | .shl x => [x, flagReg]
  | .cls => []
  | .ret => []
  | .jp _ => []
  | .call _ => []
  | .seByte _ _ => []
  | .sneByte _ _ => []
  | .seReg _ _ => []
  | .sneReg _ _ => []
  | .ldI _ => []
  | .jpV0 _ => []
  | .unmatched _ => []

/-- The instructions whose outcome is a jump, and those whose outcome is skip or advance (40_engine.md R114). -/
inductive PcClass where
  | jumps
  | skipsOrAdvances
  | advances
  deriving DecidableEq, Repr

/-- The outcome column of the opcode table (40_engine.md R114). -/
def pcClass : Instr → PcClass
  | .ret => .jumps
  | .jp _ => .jumps
  | .call _ => .jumps
  | .jpV0 _ => .jumps
  | .seByte _ _ => .skipsOrAdvances
  | .sneByte _ _ => .skipsOrAdvances
  | .seReg _ _ => .skipsOrAdvances
  | .sneReg _ _ => .skipsOrAdvances
  | .cls => .advances
  | .ldByte _ _ => .advances
  | .addByte _ _ => .advances
  | .ldReg _ _ => .advances
  | .orReg _ _ => .advances
  | .andReg _ _ => .advances
  | .xorReg _ _ => .advances
  | .addReg _ _ => .advances
  | .subReg _ _ => .advances
  | .shr _ => .advances
  | .subnReg _ _ => .advances
  | .shl _ => .advances
  | .ldI _ => .advances
  | .unmatched _ => .advances

/-- The target a jump replaces the pc by, as a natural number; none for the rows that do not jump (41_system_control.md R138). -/
def jumpTarget (s : State) : Instr → Option Nat
  | .cls => none
  | .ret => (liveStack s).getLast?.map BitVec.toNat
  | .jp nnn => some nnn.toNat
  | .call nnn => some nnn.toNat
  | .seByte _ _ => none
  | .sneByte _ _ => none
  | .seReg _ _ => none
  | .ldByte _ _ => none
  | .addByte _ _ => none
  | .ldReg _ _ => none
  | .orReg _ _ => none
  | .andReg _ _ => none
  | .xorReg _ _ => none
  | .addReg _ _ => none
  | .subReg _ _ => none
  | .shr _ => none
  | .subnReg _ _ => none
  | .shl _ => none
  | .sneReg _ _ => none
  | .ldI _ => none
  | .jpV0 nnn => some ((s.readV 0).toNat + nnn.toNat)
  | .unmatched _ => none

/-- The jump targets that come from the instruction word are even (10_state.md R26); RET's target is a stack entry. -/
def evenTarget (s : State) : Instr → Prop
  | .cls => True
  | .ret => True
  | .jp nnn => nnn.toNat % 2 = 0
  | .call nnn => nnn.toNat % 2 = 0
  | .seByte _ _ => True
  | .sneByte _ _ => True
  | .seReg _ _ => True
  | .ldByte _ _ => True
  | .addByte _ _ => True
  | .ldReg _ _ => True
  | .orReg _ _ => True
  | .andReg _ _ => True
  | .xorReg _ _ => True
  | .addReg _ _ => True
  | .subReg _ _ => True
  | .shr _ => True
  | .subnReg _ _ => True
  | .shl _ => True
  | .sneReg _ _ => True
  | .ldI _ => True
  | .jpV0 nnn => ((s.readV 0).toNat + nnn.toNat) % 2 = 0
  | .unmatched _ => True

/-- Pc and every live stack entry are even (10_state.md R26). -/
def EvenAddresses (s : State) : Prop :=
  s.pc.toNat % 2 = 0 ∧ ∀ k : Fin 16, k.val < s.sp.val → (s.stack[k.val]).toNat % 2 = 0

/-- Two states that agree on what an instruction may read: the registers, the pc, and the live part of the stack. -/
def AgreeOnReadState (s t : State) : Prop :=
  (∀ r : RegIdx, s.readV r = t.readV r) ∧ s.pc = t.pc ∧ s.sp = t.sp ∧
  ∀ k : Fin 16, k.val < s.sp.val → s.stack[k.val] = t.stack[k.val]

/-- One piece `f` of the state after the same instruction in two states: either both runs left theirs as it was, or both
now hold the same. So whether it is written, and what is written, is the same in both. -/
def SameEffectOn {α : Type} (f : State → α) (s s' t t' : State) : Prop :=
  (f t = f s ∧ f t' = f s') ∨ f t = f t'

/-- What an execution fault of a step records, and when that fault is the one raised (60_exceptions.md R201, R205). -/
def ExecutionFaultOf (s : State) : FaultRecord → Prop
  | .execMemBounds a => 0xFFF < a ∧ (a = s.pc.toNat ∨ (s.pc.toNat = 0xFFF ∧ a = 0x1000))
  | .execStackUnderflow p => p = s.pc ∧ s.sp.val = 0 ∧ fetch s = .ok 0x00EE
  | .execStackOverflow p => p = s.pc ∧ s.sp.val = 16 ∧ ∃ w : Word, fetch s = .ok w ∧ w.toNat / 4096 = 2
  | .resImageMissing => False
  | .resImageTooLarge _ => False
  | .resWriteBeyondCapacity _ _ => False
  | .configInvalid _ _ => False

end Sys2Proof.Claims

open Sys2Proof.Claims

/-! ## System and control transfer (41_system_control.md) -/

/-- R130, CLS: every cell of the video buffer becomes unlit, the pc advances, nothing else is touched. -/
def Obligations.ClsClearsTheVideoBuffer : Prop :=
  ∀ s : State, ∃ t, exec .cls s = .next t ∧
    (∀ (c : Fin 64) (r : Fin 32), (t.video[c.val])[r.val] = false) ∧
    t.pc = s.pc + 2 ∧ t = { s with video := t.video, pc := t.pc } ∧ SameRegisters s t ∧ SameMemory s t

/-- R132, JP addr: the pc becomes the zero-extended address, whatever its parity. -/
def Obligations.JpGoesToItsAddress : Prop :=
  ∀ (s : State) (nnn : Addr12), ∃ t, exec (.jp nnn) s = .next t ∧ t.pc.toNat = nnn.toNat ∧ OnlyPc s t

/-- R134, JP V0, addr: the pc becomes V0 + nnn; the sum is not reduced mod 0x1000 and does not wrap. -/
def Obligations.JpV0AddsV0WithoutWrapping : Prop :=
  ∀ (s : State) (nnn : Addr12), ∃ t, exec (.jpV0 nnn) s = .next t ∧
    t.pc.toNat = (s.readV 0).toNat + nnn.toNat ∧ OnlyPc s t

/-- 41_system_control.md CALL below the stack's capacity: the address of the following word is pushed, the pc becomes
the address, no other entry, register or byte changes. (`pc + 2` wraps only at a pc no fetch succeeds from, D4, log 11.) -/
def Obligations.CallPushesTheFollowingAddress : Prop :=
  ∀ (s : State) (nnn : Addr12) (h : s.sp.val < 16), ∃ t, exec (.call nnn) s = .next t ∧
    t.sp.val = s.sp.val + 1 ∧ t.stack[s.sp.val] = s.pc + 2 ∧
    (∀ k : Fin 16, k.val ≠ s.sp.val → t.stack[k.val] = s.stack[k.val]) ∧ t.pc.toNat = nnn.toNat ∧
    t = { s with stack := t.stack, sp := t.sp, pc := t.pc } ∧ SameRegisters s t ∧ SameMemory s t

/-- CALL with sixteen entries held raises EXEC_STACK_OVERFLOW with its pc and writes nothing else: the spec's own
decisions D6 and D7 (logs 9 and 1). -/
def Obligations.CallOnAFullStackFaults : Prop :=
  ∀ (s : State) (nnn : Addr12), s.sp.val = 16 →
    ∃ t, exec (.call nnn) s = .next t ∧ FaultEntered (.execStackOverflow s.pc) s t

/-- RET with an entry held: the pc becomes the top entry, which is removed and keeps its value in the array (D24, log
18); nothing else changes. -/
def Obligations.RetPopsIntoThePc : Prop :=
  ∀ (s : State) (h : 0 < s.sp.val), ∃ t, exec .ret s = .next t ∧
    t.sp.val + 1 = s.sp.val ∧ t.pc = s.stack[s.sp.val - 1] ∧
    t = { s with sp := t.sp, pc := t.pc } ∧ SameRegisters s t ∧ SameMemory s t

/-- RET with no entry held raises EXEC_STACK_UNDERFLOW with its pc and writes nothing else: that it is fatal is the
document's, the recorded form is the spec's decision D7 (log 1). -/
def Obligations.RetOnAnEmptyStackFaults : Prop :=
  ∀ s : State, s.sp.val = 0 → ∃ t, exec .ret s = .next t ∧ FaultEntered (.execStackUnderflow s.pc) s t

/-- 95_test_vectors.md S5 for every state and depth: CALL then RET resumes at the word after the CALL, with the stack as
it was. -/
def Obligations.CallThenRetResumesAfterTheCall : Prop :=
  ∀ (s : State) (nnn : Addr12), s.sp.val < 16 → ∃ t u, exec (.call nnn) s = .next t ∧ exec .ret t = .next u ∧
    u.pc = s.pc + 2 ∧ liveStack u = liveStack s ∧ u = { s with pc := u.pc, stack := u.stack }

/-- 10_state.md R29: seen through its live entries the call stack is a list of at most sixteen return addresses: CALL appends
`pc + 2`, RET takes the last off and jumps to it. That both are fatal exactly at the list's bounds is R131's for RET; that a CALL
on sixteen entries faults and leaves the list is a choice, the spec's decision D6 (log 9), as is the recorded form of both
faults, D7 (log 1). -/
def Obligations.CallStackActsAsABoundedList : Prop :=
  ∀ s : State, (liveStack s).length ≤ 16 ∧
    (∀ nnn : Addr12, ∃ t, exec (.call nnn) s = .next t ∧
      liveStack t = (if (liveStack s).length < 16 then liveStack s ++ [s.pc + 2] else liveStack s) ∧
      (s.halted = false → (t.halted = true ↔ (liveStack s).length = 16))) ∧
    (∃ t, exec .ret s = .next t ∧ liveStack t = (liveStack s).dropLast ∧
      t.pc = (liveStack s).getLast?.getD s.pc ∧
      (s.halted = false → (t.halted = true ↔ liveStack s = [])))

/-! ## Skips (42_skips.md) -/

/-- R150 to R153: SE and SNE, against a byte and against a register, skip exactly when their unsigned comparison holds and
write nothing but the pc. -/
def Obligations.SkipInstructionsCompareAndSkip : Prop :=
  ∀ (s : State) (x y : RegIdx) (kk : Byte),
    (∃ t, exec (.seByte x kk) s = .next t ∧ SkipsWhen ((s.readV x).toNat = kk.toNat) s t) ∧
    (∃ t, exec (.sneByte x kk) s = .next t ∧ SkipsWhen ((s.readV x).toNat ≠ kk.toNat) s t) ∧
    (∃ t, exec (.seReg x y) s = .next t ∧ SkipsWhen ((s.readV x).toNat = (s.readV y).toNat) s t) ∧
    (∃ t, exec (.sneReg x y) s = .next t ∧ SkipsWhen ((s.readV x).toNat ≠ (s.readV y).toNat) s t)

/-! ## Immediate loads and adds (43_loads.md) -/

/-- R160, LD Vx, byte: the register becomes the byte; x = 15 is an ordinary write of VF. -/
def Obligations.LdByteLoadsTheImmediate : Prop :=
  ∀ (s : State) (x : RegIdx) (kk : Byte), ∃ t, exec (.ldByte x kk) s = .next t ∧ WritesOneRegister x kk s t

/-- R161, ADD Vx, byte: the sum modulo 256, and VF is not written even when the sum exceeds 255 (unless x = 15). -/
def Obligations.AddByteWrapsWithoutAFlag : Prop :=
  ∀ (s : State) (x : RegIdx) (kk : Byte), ∃ t, exec (.addByte x kk) s = .next t ∧
    (t.readV x).toNat = ((s.readV x).toNat + kk.toNat) % 256 ∧ WritesOneRegister x (t.readV x) s t

/-- R162, LD I, addr: I becomes the zero-extended address; no register, stack entry or byte changes. -/
def Obligations.LdILoadsTheIndexRegister : Prop :=
  ∀ (s : State) (nnn : Addr12), ∃ t, exec (.ldI nnn) s = .next t ∧ t.I.toNat = nnn.toNat ∧ t.pc = s.pc + 2 ∧
    t = { s with I := t.I, pc := t.pc } ∧ SameRegisters s t ∧ SameMemory s t

/-! ## ALU (44_alu.md) -/

/-- R171 to R174: copy, OR, AND and XOR write the destination only; VF is written only as the destination. -/
def Obligations.MoveAndLogicWriteOnlyTheirDestination : Prop :=
  ∀ (s : State) (x y : RegIdx),
    (∃ t, exec (.ldReg x y) s = .next t ∧ WritesOneRegister x (s.readV y) s t) ∧
    (∃ t, exec (.orReg x y) s = .next t ∧ WritesOneRegister x (s.readV x ||| s.readV y) s t) ∧
    (∃ t, exec (.andReg x y) s = .next t ∧ WritesOneRegister x (s.readV x &&& s.readV y) s t) ∧
    (∃ t, exec (.xorReg x y) s = .next t ∧ WritesOneRegister x (s.readV x ^^^ s.readV y) s t)

/-- R175, ADD Vx, Vy: the sum's low byte in Vx and the carry in VF, both from the values before the step; when x = 15 VF
ends holding the carry. -/
def Obligations.AddRegSetsTheCarryLast : Prop :=
  ∀ (s : State) (x y : RegIdx), ∃ t, exec (.addReg x y) s = .next t ∧
    (x ≠ flagReg → (t.readV x).toNat = ((s.readV x).toNat + (s.readV y).toNat) % 256) ∧
    (t.readV flagReg).toNat = (if (s.readV x).toNat + (s.readV y).toNat > 255 then 1 else 0) ∧
    (∀ r : RegIdx, r ≠ x → r ≠ flagReg → t.readV r = s.readV r) ∧ t.pc = s.pc + 2 ∧ OnlyRegistersAndPc s t

/-- SUB Vx, Vy in the order AS_LISTED, the spec's decision D11 (log 7): VF first becomes 1 when Vx > Vy strictly, then Vx
becomes the difference mod 256 of the registers as that write left them; x or y may be 15. -/
def Obligations.SubRegFlagThenDifference : Prop :=
  ∀ (s : State) (x y : RegIdx) (f : Nat), f = (if (s.readV x).toNat > (s.readV y).toNat then 1 else 0) →
    ∃ t, exec (.subReg x y) s = .next t ∧
      FlagThenResult x f ((afterFlag f x s + 256 - afterFlag f y s) % 256) s t

/-- SHR Vx in the order AS_LISTED (D11, log 7): VF first becomes the low bit, then Vx is shifted right with zero fill;
x = 15 leaves 0. -/
def Obligations.ShrFlagThenLogicalShift : Prop :=
  ∀ (s : State) (x : RegIdx) (f : Nat), f = (s.readV x).toNat % 2 →
    ∃ t, exec (.shr x) s = .next t ∧ FlagThenResult x f (afterFlag f x s / 2) s t

/-- SUBN Vx, Vy in the order AS_LISTED (D11, log 7): VF first becomes 1 when Vy > Vx strictly, then Vx becomes Vy - Vx mod
256 of the registers as that write left them. -/
def Obligations.SubnRegFlagThenDifference : Prop :=
  ∀ (s : State) (x y : RegIdx) (f : Nat), f = (if (s.readV y).toNat > (s.readV x).toNat then 1 else 0) →
    ∃ t, exec (.subnReg x y) s = .next t ∧
      FlagThenResult x f ((afterFlag f y s + 256 - afterFlag f x s) % 256) s t

/-- SHL Vx in the order AS_LISTED (D11, log 7): VF first becomes the high bit, then Vx is doubled mod 256; x = 15 leaves
twice the flag. -/
def Obligations.ShlFlagThenDouble : Prop :=
  ∀ (s : State) (x : RegIdx) (f : Nat), f = (s.readV x).toNat / 128 →
    ∃ t, exec (.shl x) s = .next t ∧ FlagThenResult x f (afterFlag f x s * 2 % 256) s t

/-- 44_alu.md section 5: away from VF the orders AS_LISTED and LATCHED give the same state, for all four instructions. -/
def Obligations.ListedAndLatchedOrdersAgreeAwayFromVf : Prop :=
  ∀ (s : State) (x y : RegIdx), x ≠ flagReg → y ≠ flagReg →
    subWrites .asListed x y s = subWrites .latched x y s ∧ shrWrites .asListed x s = shrWrites .latched x s ∧
    subnWrites .asListed x y s = subnWrites .latched x y s ∧ shlWrites .asListed x s = shlWrites .latched x s

/-- 44_alu.md section 5, the order LATCHED (the other value of the parameter ALU_ORDER, not this hardware's): the result and
the flag are both functions of the old registers, and the flag is written last, so VF ends holding it even when x = 15. -/
def Obligations.LatchedOrderUsesOldOperands : Prop :=
  ∀ (s : State) (x y : RegIdx) (a b : Nat), a = (s.readV x).toNat → b = (s.readV y).toNat →
    (((subWrites .latched x y s).readV flagReg).toNat = (if a > b then 1 else 0) ∧
      (x ≠ flagReg → ((subWrites .latched x y s).readV x).toNat = (a + 256 - b) % 256)) ∧
    (((shrWrites .latched x s).readV flagReg).toNat = a % 2 ∧
      (x ≠ flagReg → ((shrWrites .latched x s).readV x).toNat = a / 2)) ∧
    (((subnWrites .latched x y s).readV flagReg).toNat = (if b > a then 1 else 0) ∧
      (x ≠ flagReg → ((subnWrites .latched x y s).readV x).toNat = (b + 256 - a) % 256)) ∧
    (((shlWrites .latched x s).readV flagReg).toNat = a / 128 ∧
      (x ≠ flagReg → ((shlWrites .latched x s).readV x).toNat = a * 2 % 256))

/-! ## Unmatched words and decoding (40_engine.md, 30_encoding.md) -/

/-- R115: an unmatched word only advances the pc; the word 0x0000 is one. -/
def Obligations.UnmatchedWordsAdvanceOnly : Prop :=
  decodeWord 0x0000 = .unmatched 0x0000 ∧
  ∀ (s : State) (w : Word), ∃ t, exec (.unmatched w) s = .next t ∧ t.pc = s.pc + 2 ∧ OnlyPc s t

/-- 30_encoding.md R86 with SHIFT_Y_DONT_CARE = false (D10, log 6): the words that decode to the no-op are exactly the
seven spaces of its table. -/
def Obligations.UnmatchedSpaceIsTheListedOne : Prop :=
  ∀ (w : Word) (op y n : Nat), op = w.toNat / 4096 → y = w.toNat / 16 % 16 → n = w.toNat % 16 →
    (decodeWord w = .unmatched w ↔
      (op = 0 ∧ w.toNat ≠ 0x00E0 ∧ w.toNat ≠ 0x00EE) ∨ (op = 5 ∧ n ≠ 0) ∨
      (op = 8 ∧ (8 ≤ n ∧ n ≠ 0xE)) ∨ (op = 8 ∧ n = 6 ∧ y ≠ 0) ∨ (op = 8 ∧ n = 0xE ∧ y ≠ 0) ∨
      (op = 9 ∧ n ≠ 0) ∨ 0xC ≤ op)

/-- 30_encoding.md R84, R85 against 40_engine.md R113, for both values of SHIFT_Y_DONT_CARE: the decoder's chain of tests gives
row r's instruction exactly for the words that match row r's mask. -/
def Obligations.DecoderAgreesWithTheOpcodeTable : Prop :=
  ∀ (yDontCare : Bool) (w : Word), ∀ r ∈ opcodeTableWith yDontCare,
    (r.matchesWord w ↔ (decodeWordWith yDontCare w).row = r.row)

/-- 30_encoding.md R85: no word matches two rows, for both values of SHIFT_Y_DONT_CARE. -/
def Obligations.OpcodeRowsAreDisjoint : Prop :=
  ∀ (yDontCare : Bool) (w : Word), ∀ r ∈ opcodeTableWith yDontCare, ∀ q ∈ opcodeTableWith yDontCare,
    r.matchesWord w → q.matchesWord w → r = q

/-- Decode of encode is the instruction, with every operand at every value its field admits, over words and over bytes
in memory order with anything after them. -/
def Obligations.DecodeOfEncodeIsTheInstruction : Prop :=
  ∀ i : Instr, i.WellFormed → decodeWord (encode i) = i ∧
    ∀ rest : List Byte, decodeBytes (encodeBytes i ++ rest) = .ok (i, rest)

/-- Every word decodes to a well-formed instruction that encodes back to the same word, so no bit of a word is dropped
(with the hardware's SHIFT_Y_DONT_CARE = false, D10, log 6). -/
def Obligations.EncodeOfDecodeIsTheWord : Prop :=
  ∀ w : Word, (decodeWord w).WellFormed ∧ encode (decodeWord w) = w

/-- 30_encoding.md R87, R80: decoding two or more bytes always succeeds and consumes exactly two; fewer are refused by
name. -/
def Obligations.DecodingRefusesOnlyShortInput : Prop :=
  decodeBytes [] = .error .empty ∧ (∀ b : Byte, decodeBytes [b] = .error .halfWord) ∧
  ∀ (hi lo : Byte) (rest : List Byte), ∃ i : Instr, i.WellFormed ∧ decodeBytes (hi :: lo :: rest) = .ok (i, rest)

/-- Words written out from the patterns of 30_encoding.md R84 (examples of the spec) decode to what they stand for. The last,
0x8126, is unmatched by a choice: SHIFT_Y_DONT_CARE = false, the spec's decision D10 (log 6). -/
def Obligations.SampleWordsDecode : Prop :=
  decodeWord 0x00E0 = .cls ∧ decodeWord 0x00EE = .ret ∧ decodeWord 0x2300 = .call 0x300 ∧
  decodeWord 0x332A = .seByte 3 0x2A ∧ decodeWord 0x6A0F = .ldByte 10 0x0F ∧ decodeWord 0x8AB4 = .addReg 10 11 ∧
  decodeWord 0x810E = .shl 1 ∧ decodeWord 0xB5AA = .jpV0 0x5AA ∧ decodeWord 0x8126 = .unmatched 0x8126

/-! ## Fetch and the step (40_engine.md, 60_exceptions.md) -/

/-- 20_memory.md R54, R55: where both bytes exist the fetched word is big-endian, at odd addresses as at even ones (D3, log 10). -/
def Obligations.FetchIsBigEndianAtAnyAddress : Prop :=
  ∀ s : State, s.pc.toNat ≤ 0xFFE → ∃ w : Word, fetch s = .ok w ∧
    w.toNat = (s.mem.byteAt s.pc.toNat).toNat * 256 + (s.mem.byteAt (s.pc.toNat + 1)).toNat

/-- 40_engine.md R111 with the spec's decisions D4, D5 and D7 (logs 11, 8, 1): a step whose fetch leaves the array raises
EXEC_MEM_BOUNDS with the first address out of range, after a tick that was due, and changes nothing else. -/
def Obligations.FetchBeyondMemoryFaults : Prop :=
  ∀ s : State, s.halted = false →
    (s.pc.toNat = 0xFFF →
      ∃ t, step s = .next t ∧ FaultEntered (.execMemBounds 0x1000) (tickIfDue s) t ∧ t.pc = s.pc) ∧
    (0x1000 ≤ s.pc.toNat →
      ∃ t, step s = .next t ∧ FaultEntered (.execMemBounds s.pc.toNat) (tickIfDue s) t ∧ t.pc = s.pc)

/-- A step runs the decoded instruction: when the two bytes at the pc decode to i, the step is exec of i after the tick that
is due, followed by the count unless a fault was raised (60_exceptions.md R212, R213). -/
def Obligations.StepRunsTheDecodedInstruction : Prop :=
  ∀ (s : State) (i : Instr), s.halted = false → s.pc.toNat ≤ 0xFFE →
    decodeBytes [s.mem.byteAt s.pc.toNat, s.mem.byteAt (s.pc.toNat + 1)] = .ok (i, []) →
    step s = match exec i (tickIfDue s) with
      | .next t => .next (if t.halted then t else { t with cycleCounter := t.cycleCounter + 1 })
      | .fault f => .fault f
      | .refused r => .refused r

/-- 60_exceptions.md R212, the tick at the head of an iteration: exactly when cycle_counter equals cpt both counters are
decremented and cycle_counter is reset; nothing else changes, and otherwise nothing at all. -/
def Obligations.TickDecrementsBothCountersWhenDue : Prop :=
  ∀ s : State, (s.cycleCounter = s.cpt →
      (tickIfDue s).delay = dec s.delay ∧ (tickIfDue s).sound = dec s.sound ∧ (tickIfDue s).cycleCounter = 0 ∧
      tickIfDue s = { s with
        delay := (tickIfDue s).delay, sound := (tickIfDue s).sound, cycleCounter := (tickIfDue s).cycleCounter }) ∧
    (s.cycleCounter ≠ s.cpt → tickIfDue s = s)

/-- R116: a halted block has no step, from it no run of one or more steps reaches a state. -/
def Obligations.HaltedBlockHasNoStep : Prop :=
  ∀ s : State, s.halted = true → step s = .fault (.halted s.fault) ∧
    ∀ n : Nat, Host.Core.run core (n + 1) s = .fault (.halted s.fault)

/-- 40_engine.md R110: each step of a live block completes or raises a fault. That a raised fault is a next state too, with
`halted` and `fault` set, is a choice (D7, log 1), as are the faults of a fetch out of range (D5, log 8) and of a CALL on a full
stack (D6, log 9); so a live block always has a next state, which is the halted one where a fault is raised. -/
def Obligations.LiveBlockAlwaysSteps : Prop :=
  ∀ s : State, s.halted = false → ∃ t, step s = .next t

/-- 60_exceptions.md R203, R205 (D5, D6, D7, D21, logs 8, 9, 1): a step that raises a fault changes nothing but the fault
status, the tick that was due apart; and it raises one only for a fetch out of range, a RET on an empty stack or a CALL on a full one. -/
def Obligations.FaultsArePreciseAndOnlyThese : Prop :=
  ∀ s t : State, s.halted = false → step s = .next t → t.halted = true →
    ∃ r : FaultRecord, ExecutionFaultOf s r ∧ FaultEntered r (tickIfDue s) t

/-- The host's placing of a word (log 15): the next fetch reads it, and only the two bytes at the pc differ. -/
def Obligations.PlacedWordIsFetched : Prop :=
  ∀ (s : State) (w : Word), s.mem.wf → s.pc.toNat ≤ 0xFFE →
    fetch (s.withFetchWord 16 w.toNat) = .ok w ∧
    (s.withFetchWord 16 w.toNat).mem.wf ∧
    s.withFetchWord 16 w.toNat = { s with mem := (s.withFetchWord 16 w.toNat).mem } ∧
    ∀ a : Nat, a ≠ s.pc.toNat → a ≠ s.pc.toNat + 1 → (s.withFetchWord 16 w.toNat).mem.byteAt a = s.mem.byteAt a

/-! ## Whole-machine rules over all instructions -/

/-- 40_engine.md R119 with the table of 10_state.md R23: an instruction writes only the state its rule names; memory, the
counters and the run-loop state are written by none. -/
def Obligations.InstructionsWriteOnlyTheirState : Prop :=
  ∀ (i : Instr) (s t : State), exec i s = .next t →
    (∀ r : RegIdx, r ∉ writtenRegisters i → t.readV r = s.readV r) ∧
    ((∀ nnn, i ≠ .ldI nnn) → t.I = s.I) ∧
    (i ≠ .cls → t.video = s.video) ∧
    (i ≠ .ret → (∀ nnn, i ≠ .call nnn) →
      t.stack = s.stack ∧ t.sp = s.sp ∧ t.halted = s.halted ∧ t.fault = s.fault) ∧
    t.mem = s.mem ∧ SameMemory s t ∧ t.delay = s.delay ∧ t.sound = s.sound ∧
    t.cycleCounter = s.cycleCounter ∧ t.cpt = s.cpt ∧ t.perInstructionDelay = s.perInstructionDelay

/-- 40_engine.md R114: a completed instruction advances, skips or jumps as its row says; only 00EE, 1nnn, 2nnn and Bnnn
jump, and to their row's target; only the four skips may move by 4. (The increments' modulus is D4, log 11.) -/
def Obligations.PcOutcomeFollowsTheRow : Prop :=
  ∀ (i : Instr) (s t : State), s.halted = false → exec i s = .next t → t.halted = false →
    (pcClass i = .advances → t.pc = s.pc + 2) ∧
    (pcClass i = .skipsOrAdvances → t.pc = s.pc + 2 ∨ t.pc = s.pc + 4) ∧
    (pcClass i = .jumps → jumpTarget s i = some t.pc.toNat)

/-- 10_state.md R26 (D3, log 10): evenness of the pc is not enforced, but an instruction whose target is even keeps pc and
live stack entries even. -/
def Obligations.EvenTargetsKeepThePcEven : Prop :=
  ∀ (i : Instr) (s t : State), EvenAddresses s → evenTarget s i → exec i s = .next t → EvenAddresses t

/-- 10_state.md R27, R29, R30, R32, R34: two states that agree on registers, pc, sp and live stack entries complete any
instruction alike, whatever their I, memory, counters, video buffer, run-loop state, fault status and dead stack entries: the
same registers, pc, sp and live entries result; I, every stack entry, the video buffer and the fault status are each left by both
or hold the same in both (LD I: the same I, CLS: the same video); and the rest is left by both. That a fault is a next state is
D7 (log 1). -/
def Obligations.InstructionsReadOnlyRegistersPcAndStack : Prop :=
  ∀ (i : Instr) (s s' : State), AgreeOnReadState s s' →
    ∃ t t', exec i s = .next t ∧ exec i s' = .next t' ∧ AgreeOnReadState t t' ∧
      SameEffectOn State.I s s' t t' ∧ (∀ nnn, i = .ldI nnn → t.I = t'.I) ∧
      SameEffectOn State.video s s' t t' ∧ (i = .cls → t.video = t'.video) ∧
      (∀ k : Fin 16, SameEffectOn (fun u => u.stack[k.val]) s s' t t') ∧
      SameEffectOn (fun u => (u.halted, u.fault)) s s' t t' ∧
      (t.mem = s.mem ∧ t.delay = s.delay ∧ t.sound = s.sound ∧ t.cycleCounter = s.cycleCounter ∧ t.cpt = s.cpt ∧
        t.perInstructionDelay = s.perInstructionDelay) ∧
      (t'.mem = s'.mem ∧ t'.delay = s'.delay ∧ t'.sound = s'.sound ∧ t'.cycleCounter = s'.cycleCounter ∧
        t'.cpt = s'.cpt ∧ t'.perInstructionDelay = s'.perInstructionDelay)

/-- R210: no instruction reads the counters (changing them beforehand changes nothing else) or writes them, and a step
decrements both together when a tick is due, with a floor of 0, and at no other time. -/
def Obligations.CountersAreInvisibleToTheEngine : Prop :=
  (∀ (i : Instr) (s t : State) (d e : Byte), exec i s = .next t →
    exec i { s with delay := d, sound := e } = .next { t with delay := d, sound := e }) ∧
  (∀ (i : Instr) (s t : State), exec i s = .next t → t.delay = s.delay ∧ t.sound = s.sound) ∧
  (∀ s t : State, step s = .next t →
    (s.cycleCounter = s.cpt →
      t.delay.toNat = s.delay.toNat - 1 ∧ t.sound.toNat = s.sound.toNat - 1) ∧
    (s.cycleCounter ≠ s.cpt → t.delay = s.delay ∧ t.sound = s.sound))

/-! ## Counters and cadence (60_exceptions.md) -/

/-- R209: Dec subtracts 1 with a floor of 0 and never wraps. -/
def Obligations.DecSaturatesAtZero : Prop :=
  dec 0 = 0 ∧ ∀ c : Byte, (dec c).toNat = c.toNat - 1 ∧ (dec c).toNat ≤ c.toNat

/-- 60_exceptions.md R211 (exact ceiling: D12, log 14): cpt is the least count whose product with timer_hz reaches cpu_hz, is
at least 1, and is 17 for the default rates. -/
def Obligations.CyclesPerTickIsTheExactCeiling : Prop :=
  cyclesPerTick 1000 60 = 17 ∧
  ∀ cpuHz timerHz : Nat, 0 < cpuHz → 0 < timerHz →
    1 ≤ cyclesPerTick cpuHz timerHz ∧ cpuHz ≤ cyclesPerTick cpuHz timerHz * timerHz ∧
    (cyclesPerTick cpuHz timerHz - 1) * timerHz < cpuHz

/-- 60_exceptions.md R213: after N completed iterations from a state whose cycle counter is 0, exactly (N - 1) div cpt
ticks have happened, so each counter has lost that many with a floor of 0; cpt is constant. -/
def Obligations.TicksFollowTheInstructionCount : Prop :=
  ∀ (n : Nat) (s t : State), 1 ≤ n → s.cycleCounter = 0 → 1 ≤ s.cpt → SafeRun n s t →
    t.cycleCounter = (n - 1) % s.cpt + 1 ∧ t.cpt = s.cpt ∧
    t.delay.toNat = s.delay.toNat - (n - 1) / s.cpt ∧ t.sound.toNat = s.sound.toNat - (n - 1) / s.cpt

/-! ## Memory writes, reset and load (20_memory.md, 70_reset_and_hazards.md) -/

/-- 20_memory.md R57 (D15, log 19): a bulk write that fits changes exactly the bytes it names and keeps the memory
canonical (a form of the model's own, log 17); one that does not fit writes nothing and records its start and length. -/
def Obligations.BulkWriteWritesExactlyItsBytes : Prop :=
  ∀ (m : Memory) (bytes : List Byte) (start : Nat), m.wf →
    (start + bytes.length ≤ 4096 → ∃ m' : Memory, memWriteBulk bytes start m = .ok m' ∧ m'.wf ∧
      ∀ a : Nat, m'.byteAt a = if start ≤ a ∧ a < start + bytes.length then bytes.getD (a - start) 0 else m.byteAt a) ∧
    (4096 < start + bytes.length →
      memWriteBulk bytes start m = .error (.resWriteBeyondCapacity start bytes.length))

/-- The model's own choice of how to hold the array of 20_memory.md section 1 (DESIGN CHOICE, log 17): in the canonical form
equal contents are equal lists, since two canonical memories that read the same everywhere are the same. The spec says nothing
of lists. -/
def Obligations.CanonicalMemoriesWithEqualBytesAreEqual : Prop :=
  ∀ m m' : Memory, m.wf → m'.wf → (∀ a : Nat, m.byteAt a = m'.byteAt a) → m = m'

/-- 70_reset_and_hazards.md R251: the reset state. The pc, the cycle counter, cpt, the glyph table's place and the empty
stack are the document's; the zeros, the unlit buffer, the fault status and the glyph bytes are the spec's decisions D7,
D8, D9 (logs 1, 3, 4, 5). -/
def Obligations.ResetStateIsAsListed : Prop :=
  State.reset.pc.toNat = 0x200 ∧ State.reset.cycleCounter = 0 ∧ State.reset.cpt = 17 ∧ State.reset.sp.val = 0 ∧
  (∀ r : RegIdx, State.reset.readV r = 0) ∧ State.reset.I = 0 ∧ (∀ k : Fin 16, State.reset.stack[k.val] = 0) ∧
  State.reset.delay = 0 ∧ State.reset.sound = 0 ∧
  (∀ (c : Fin 64) (r : Fin 32), (State.reset.video[c.val])[r.val] = false) ∧
  State.reset.halted = false ∧ State.reset.fault = none ∧ Config.glyphTable.length = 80 ∧
  (∀ a : Nat, State.reset.mem.byteAt a = if a < 80 then Config.glyphTable.getD a 0 else 0)

/-- 70_reset_and_hazards.md R250, R252 (D8, D9, D16, D25, logs 3, 4, 5, 19): with positive rates and an image of at most
3584 bytes, boot leaves the reset state with the image at 0x200 and cpt from the rates; no other byte differs. -/
def Obligations.BootLoadsTheImage : Prop :=
  ∀ (cpuHz timerHz : Nat) (bytes : List Byte), 0 < cpuHz → 0 < timerHz → bytes.length ≤ 3584 →
    (∀ a : Nat, (boot cpuHz timerHz (some bytes)).mem.byteAt a =
      if 0x200 ≤ a ∧ a < 0x200 + bytes.length then bytes.getD (a - 0x200) 0 else State.reset.mem.byteAt a) ∧
    boot cpuHz timerHz (some bytes) = { State.reset with
      mem := (boot cpuHz timerHz (some bytes)).mem
      cpt := cyclesPerTick cpuHz timerHz
      perInstructionDelay := ⟨1, cpuHz⟩ }

/-- 70_reset_and_hazards.md R250, R253 with D7, D12 (logs 1, 2, 14): a rate of 0 is refused first, then a missing image, then
one that is too long; each leaves a halted block with that fault, which has no step. -/
def Obligations.BootRefusesBadConfigurationAndImage : Prop :=
  ∀ (cpuHz timerHz : Nat) (image : Option (List Byte)),
    (cpuHz = 0 ∨ timerHz = 0 →
      (boot cpuHz timerHz image).halted = true ∧
      (boot cpuHz timerHz image).fault = some (.configInvalid cpuHz timerHz)) ∧
    (0 < cpuHz → 0 < timerHz → image = none →
      (boot cpuHz timerHz image).halted = true ∧ (boot cpuHz timerHz image).fault = some .resImageMissing) ∧
    (0 < cpuHz → 0 < timerHz → ∀ bytes, image = some bytes → 3584 < bytes.length →
      (boot cpuHz timerHz image).halted = true ∧
      (boot cpuHz timerHz image).fault = some (.resImageTooLarge bytes.length)) ∧
    ((boot cpuHz timerHz image).halted = true → ∀ t, step (boot cpuHz timerHz image) ≠ .next t)

/-! ## The machine's invariant -/

/-- The invariant holds right after reset. (Its canonical form of memory is the model's own, log 17; the reset values it
reads are D7's and D8's, logs 1 and 3, where the document gives none.) -/
def Obligations.ResetMeetsTheInvariant : Prop := Inv State.reset

/-- Every boot, successful or not, gives a state that meets the invariant. Of a refused boot the spec gives the fault only:
that every other field then stands at its reset value, and so meets the invariant, is the model's own choice (DESIGN CHOICE,
log 2); so is the canonical form of memory (log 17). -/
def Obligations.BootMeetsTheInvariant : Prop :=
  ∀ (cpuHz timerHz : Nat) (image : Option (List Byte)), Inv (boot cpuHz timerHz image)

/-- Every step keeps the invariant: memory canonical (the model's own form, log 17); cycle_counter in 0..cpt with cpt at least 1
(10_state.md R31); a fault recorded
exactly when halted (R33); I a 12-bit value (R27); stack entries and pc small. -/
def Obligations.StepKeepsTheInvariant : Prop :=
  ∀ s t : State, Inv s → step s = .next t → Inv t

/-- 40_engine.md R114, 10_state.md R25 (D4, log 11): no completed step wraps the pc: after one that did not jump, the pc is 2 or 4
above as a natural number. -/
def Obligations.PcIncrementsNeverWrap : Prop :=
  ∀ (s t : State) (w : Word), s.halted = false → step s = .next t → t.halted = false → fetch s = .ok w →
    pcClass (decodeWord w) ≠ .jumps → t.pc.toNat = s.pc.toNat + 2 ∨ t.pc.toNat = s.pc.toNat + 4

/-- 40_engine.md R115, corner case (with D5, log 8): zeroed memory from an even pc is executed as no-ops up to 0xFFE, each moving
the pc by 2 and touching nothing of the engine, and the fetch at 0x1000 then raises the bounds fault. -/
def Obligations.ZeroedMemoryRunsToItsEndAndFaults : Prop :=
  ∀ (s : State) (n : Nat), s.halted = false → s.pc.toNat + 2 * n = 0x1000 →
    (∀ a : Nat, s.pc.toNat ≤ a → a ≤ 0xFFF → s.mem.byteAt a = 0) →
    ∃ t u, SafeRun n s t ∧ t.pc.toNat = 0x1000 ∧ t.V = s.V ∧ t.I = s.I ∧ t.stack = s.stack ∧ t.sp = s.sp ∧
      t.mem = s.mem ∧ t.video = s.video ∧
      Host.Core.run core (n + 1) s = .next u ∧ u.halted = true ∧ u.fault = some (.execMemBounds 0x1000)
end

