-- ==== Sys2Proof/Laws/Encoding.lean ====
section
/-! SUPPORT. The fields of encoded words, one lemma per format and field, and a word from its two bytes. -/

namespace Sys2Proof

/-- The value of a word of format `nnn`. -/
theorem wordNnn_toNat (op : BitVec 4) (nnn : Addr12) : (wordNnn op nnn).toNat = op.toNat * 4096 + nnn.toNat := by
  have := nnn.isLt
  rw [wordNnn, BitVec.toNat_append, ← Nat.shiftLeft_add_eq_or_of_lt this, Nat.shiftLeft_eq]

/-- The value of a word of format `xkk`. -/
theorem wordXkk_toNat (op : BitVec 4) (x : RegIdx) (kk : Byte) :
    (wordXkk op x kk).toNat = op.toNat * 4096 + x.val * 256 + kk.toNat := by
  have h1 := kk.isLt
  have h2 : (regBits x).toNat = x.val := rfl
  have h3 := x.isLt
  rw [wordXkk, BitVec.toNat_append, ← Nat.shiftLeft_add_eq_or_of_lt h1, BitVec.toNat_append,
    ← Nat.shiftLeft_add_eq_or_of_lt (by rw [h2]; exact h3), h2]
  simp only [Nat.shiftLeft_eq]
  omega

/-- The value of a word of format `xy`. -/
theorem wordXy_toNat (op : BitVec 4) (x y : RegIdx) (n : BitVec 4) :
    (wordXy op x y n).toNat = op.toNat * 4096 + x.val * 256 + y.val * 16 + n.toNat := by
  have h1 := n.isLt
  have h2 : (regBits x).toNat = x.val := rfl
  have h3 : (regBits y).toNat = y.val := rfl
  have h4 := x.isLt
  have h5 := y.isLt
  rw [wordXy, BitVec.toNat_append, ← Nat.shiftLeft_add_eq_or_of_lt h1, BitVec.toNat_append,
    ← Nat.shiftLeft_add_eq_or_of_lt (by rw [h3]; exact h5), BitVec.toNat_append,
    ← Nat.shiftLeft_add_eq_or_of_lt (by rw [h2]; exact h4), h2, h3]
  simp only [Nat.shiftLeft_eq]
  omega

/-! ## Fields as numbers -/

theorem opField_toNat (w : Word) : (opField w).toNat = w.toNat / 4096 := by
  have := w.isLt
  simp only [opField, BitVec.extractLsb'_toNat, Nat.shiftRight_eq_div_pow]
  omega

theorem xField_val (w : Word) : (xField w).val = w.toNat / 256 % 16 := by
  show (w.extractLsb' 8 4).toNat = _
  simp only [BitVec.extractLsb'_toNat, Nat.shiftRight_eq_div_pow]

theorem yField_val (w : Word) : (yField w).val = w.toNat / 16 % 16 := by
  show (w.extractLsb' 4 4).toNat = _
  simp only [BitVec.extractLsb'_toNat, Nat.shiftRight_eq_div_pow]

theorem nField_toNat (w : Word) : (nField w).toNat = w.toNat % 16 := by
  simp only [nField, BitVec.extractLsb'_toNat, Nat.shiftRight_eq_div_pow]
  omega

theorem kkField_toNat (w : Word) : (kkField w).toNat = w.toNat % 256 := by
  simp only [kkField, BitVec.extractLsb'_toNat, Nat.shiftRight_eq_div_pow]
  omega

theorem nnnField_toNat (w : Word) : (nnnField w).toNat = w.toNat % 4096 := by
  simp only [nnnField, BitVec.extractLsb'_toNat, Nat.shiftRight_eq_div_pow]
  omega

/-! ## Fields of encoded words -/

@[simp] theorem opField_wordNnn (op : BitVec 4) (nnn : Addr12) : opField (wordNnn op nnn) = op := by
  have := nnn.isLt
  apply BitVec.eq_of_toNat_eq
  rw [opField_toNat, wordNnn_toNat]
  omega

@[simp] theorem nnnField_wordNnn (op : BitVec 4) (nnn : Addr12) : nnnField (wordNnn op nnn) = nnn := by
  have := nnn.isLt
  apply BitVec.eq_of_toNat_eq
  rw [nnnField_toNat, wordNnn_toNat]
  omega

@[simp] theorem opField_wordXkk (op : BitVec 4) (x : RegIdx) (kk : Byte) : opField (wordXkk op x kk) = op := by
  have := kk.isLt
  apply BitVec.eq_of_toNat_eq
  rw [opField_toNat, wordXkk_toNat]
  omega

@[simp] theorem xField_wordXkk (op : BitVec 4) (x : RegIdx) (kk : Byte) : xField (wordXkk op x kk) = x := by
  have := kk.isLt
  apply Fin.ext
  rw [xField_val, wordXkk_toNat]
  omega

@[simp] theorem kkField_wordXkk (op : BitVec 4) (x : RegIdx) (kk : Byte) : kkField (wordXkk op x kk) = kk := by
  have := kk.isLt
  apply BitVec.eq_of_toNat_eq
  rw [kkField_toNat, wordXkk_toNat]
  omega

@[simp] theorem opField_wordXy (op : BitVec 4) (x y : RegIdx) (n : BitVec 4) : opField (wordXy op x y n) = op := by
  have := n.isLt
  apply BitVec.eq_of_toNat_eq
  rw [opField_toNat, wordXy_toNat]
  omega

@[simp] theorem xField_wordXy (op : BitVec 4) (x y : RegIdx) (n : BitVec 4) : xField (wordXy op x y n) = x := by
  have := n.isLt
  apply Fin.ext
  rw [xField_val, wordXy_toNat]
  omega

@[simp] theorem yField_wordXy (op : BitVec 4) (x y : RegIdx) (n : BitVec 4) : yField (wordXy op x y n) = y := by
  have := n.isLt
  apply Fin.ext
  rw [yField_val, wordXy_toNat]
  omega

@[simp] theorem nField_wordXy (op : BitVec 4) (x y : RegIdx) (n : BitVec 4) : nField (wordXy op x y n) = n := by
  have := n.isLt
  apply BitVec.eq_of_toNat_eq
  rw [nField_toNat, wordXy_toNat]
  omega

/-- A word put together from its own two bytes. -/
@[simp] theorem wordOfBytes_bytes (w : Word) : wordOfBytes (highByte w) (lowByte w) = w := by
  have h1 := (lowByte w).isLt
  have h2 := w.isLt
  apply BitVec.eq_of_toNat_eq
  rw [wordOfBytes, BitVec.toNat_append, ← Nat.shiftLeft_add_eq_or_of_lt h1, Nat.shiftLeft_eq]
  simp only [highByte, lowByte, BitVec.extractLsb'_toNat, Nat.shiftRight_eq_div_pow]
  omega

/-! ## Masked words: what each mask of the opcode table (R84) keeps -/

/-- Mask 0xF000 keeps the op field. -/
theorem maskOp_toNat (w : Word) : (w &&& 0xF000#16).toNat = (opField w).toNat * 4096 := by
  have h : w &&& 0xF000#16 = wordNnn (opField w) 0#12 := by
    apply BitVec.eq_of_getLsbD_eq
    intro i hi
    rw [wordNnn, BitVec.getLsbD_append]
    simp only [opField, BitVec.getLsbD_and]
    interval_cases i <;> simp
  rw [h, wordNnn_toNat]
  simp

/-- Mask 0xF00F keeps the op and n fields. -/
theorem maskOpN_toNat (w : Word) : (w &&& 0xF00F#16).toNat = (opField w).toNat * 4096 + (nField w).toNat := by
  have h : w &&& 0xF00F#16 = wordXy (opField w) 0 0 (nField w) := by
    apply BitVec.eq_of_getLsbD_eq
    intro i hi
    rw [wordXy, BitVec.getLsbD_append, BitVec.getLsbD_append, BitVec.getLsbD_append]
    simp only [opField, nField, regBits, BitVec.getLsbD_and]
    interval_cases i <;> simp
  rw [h, wordXy_toNat]
  simp

/-- Mask 0xF0FF keeps the op and kk fields. -/
theorem maskOpKk_toNat (w : Word) : (w &&& 0xF0FF#16).toNat = (opField w).toNat * 4096 + (kkField w).toNat := by
  have h : w &&& 0xF0FF#16 = wordXkk (opField w) 0 (kkField w) := by
    apply BitVec.eq_of_getLsbD_eq
    intro i hi
    rw [wordXkk, BitVec.getLsbD_append, BitVec.getLsbD_append]
    simp only [opField, kkField, regBits, BitVec.getLsbD_and]
    interval_cases i <;> simp
  rw [h, wordXkk_toNat]
  simp

end Sys2Proof
end

