-- ==== Sys2Proof/Laws/Decoding.lean ====
section
/-! SUPPORT. The decoder's answer for each value of the op field (spec 40_engine.md R113), so that later proofs split on the field and never unfold the whole chain of tests. -/

namespace Sys2Proof

/-- The sixteen values of an op or n field. -/
theorem field_cases (o : BitVec 4) : o = 0#4 ∨ o = 1#4 ∨ o = 2#4 ∨ o = 3#4 ∨ o = 4#4 ∨ o = 5#4 ∨ o = 6#4 ∨ o = 7#4 ∨
    o = 8#4 ∨ o = 9#4 ∨ o = 10#4 ∨ o = 11#4 ∨ o = 12#4 ∨ o = 13#4 ∨ o = 14#4 ∨ o = 15#4 := by
  revert o
  decide

/-- A word whose op field is not 0 is neither CLS nor RET. -/
theorem ne_special_of_op {w : Word} (h : opField w ≠ 0#4) : w ≠ 0x00E0#16 ∧ w ≠ 0x00EE#16 :=
  ⟨fun e => h (by rw [e]; decide), fun e => h (by rw [e]; decide)⟩

variable {yDontCare : Bool} {w : Word}

theorem decode_op0 (h : opField w = 0#4) : decodeWordWith yDontCare w =
    if w = 0x00E0#16 then .cls else if w = 0x00EE#16 then .ret else .unmatched w := by
  simp [decodeWordWith, h]

theorem decode_op1 (h : opField w = 1#4) : decodeWordWith yDontCare w = .jp (nnnField w) := by
  simp [decodeWordWith, h, ne_special_of_op (w := w) (by simp [h])]

theorem decode_op2 (h : opField w = 2#4) : decodeWordWith yDontCare w = .call (nnnField w) := by
  simp [decodeWordWith, h, ne_special_of_op (w := w) (by simp [h])]

theorem decode_op3 (h : opField w = 3#4) : decodeWordWith yDontCare w = .seByte (xField w) (kkField w) := by
  simp [decodeWordWith, h, ne_special_of_op (w := w) (by simp [h])]

theorem decode_op4 (h : opField w = 4#4) : decodeWordWith yDontCare w = .sneByte (xField w) (kkField w) := by
  simp [decodeWordWith, h, ne_special_of_op (w := w) (by simp [h])]

theorem decode_op5 (h : opField w = 5#4) : decodeWordWith yDontCare w =
    if nField w = 0#4 then .seReg (xField w) (yField w) else .unmatched w := by
  simp [decodeWordWith, h, ne_special_of_op (w := w) (by simp [h])]

theorem decode_op6 (h : opField w = 6#4) : decodeWordWith yDontCare w = .ldByte (xField w) (kkField w) := by
  simp [decodeWordWith, h, ne_special_of_op (w := w) (by simp [h])]

theorem decode_op7 (h : opField w = 7#4) : decodeWordWith yDontCare w = .addByte (xField w) (kkField w) := by
  simp [decodeWordWith, h, ne_special_of_op (w := w) (by simp [h])]

/-- The words with op = 8: `alu_dispatch` (44_alu.md R170). -/
theorem decode_op8 (h : opField w = 8#4) : decodeWordWith yDontCare w =
    if nField w = 0#4 then .ldReg (xField w) (yField w)
    else if nField w = 1#4 then .orReg (xField w) (yField w)
    else if nField w = 2#4 then .andReg (xField w) (yField w)
    else if nField w = 3#4 then .xorReg (xField w) (yField w)
    else if nField w = 4#4 then .addReg (xField w) (yField w)
    else if nField w = 5#4 then .subReg (xField w) (yField w)
    else if nField w = 6#4 ∧ (yField w = 0 ∨ yDontCare = true) then .shr (xField w)
    else if nField w = 7#4 then .subnReg (xField w) (yField w)
    else if nField w = 14#4 ∧ (yField w = 0 ∨ yDontCare = true) then .shl (xField w)
    else .unmatched w := by
  simp [decodeWordWith, h, ne_special_of_op (w := w) (by simp [h])]

theorem decode_op9 (h : opField w = 9#4) : decodeWordWith yDontCare w =
    if nField w = 0#4 then .sneReg (xField w) (yField w) else .unmatched w := by
  simp [decodeWordWith, h, ne_special_of_op (w := w) (by simp [h])]

theorem decode_opA (h : opField w = 10#4) : decodeWordWith yDontCare w = .ldI (nnnField w) := by
  simp [decodeWordWith, h, ne_special_of_op (w := w) (by simp [h])]

theorem decode_opB (h : opField w = 11#4) : decodeWordWith yDontCare w = .jpV0 (nnnField w) := by
  simp [decodeWordWith, h, ne_special_of_op (w := w) (by simp [h])]

/-- The op values C to F have no instruction (R87). -/
theorem decode_opHigh (h : opField w = 12#4 ∨ opField w = 13#4 ∨ opField w = 14#4 ∨ opField w = 15#4) :
    decodeWordWith yDontCare w = .unmatched w := by
  rcases h with h | h | h | h <;> simp [decodeWordWith, h, ne_special_of_op (w := w) (by simp [h])]

end Sys2Proof
end

