-- ==== Sys2Proof/Laws/Memory.lean ====
section
/-! SUPPORT. Memory (spec 20_memory.md R57, R60): reading after writing one byte, and every memory operation keeps the canonical form. -/

namespace Sys2Proof.Machine

/-- The tail of a canonical list is canonical, and its addresses lie above the head's. -/
theorem Memory.wf_cons {a : Nat} {b : Byte} {m : Memory} (h : Memory.wf ((a, b) :: m)) :
    Memory.wf m ∧ (∀ p ∈ m, a < p.1) ∧ a ≤ Config.memMax ∧ b ≠ Memory.resetByte a := by
  obtain ⟨hp, he⟩ := h
  rw [List.pairwise_cons] at hp
  exact ⟨⟨hp.2, fun p hm => he p (List.mem_cons_of_mem _ hm)⟩, hp.1, he (a, b) List.mem_cons_self⟩

/-- A canonical list under a head with a smaller address and a value that is listed. -/
theorem Memory.cons_wf {a : Nat} {b : Byte} {m : Memory} (hm : Memory.wf m) (hlt : ∀ p ∈ m, a < p.1)
    (ha : a ≤ Config.memMax) (hb : b ≠ Memory.resetByte a) : Memory.wf ((a, b) :: m) := by
  refine ⟨List.pairwise_cons.mpr ⟨hlt, hm.1⟩, fun p hp => ?_⟩
  rcases List.mem_cons.mp hp with rfl | hp
  · exact ⟨ha, hb⟩
  · exact hm.2 p hp

/-- An address below every listed one reads as the contents after construction. -/
theorem Memory.byteAt_of_lt {m : Memory} {a : Nat} (h : ∀ p ∈ m, a < p.1) :
    m.byteAt a = Memory.resetByte a := by
  induction m with
  | nil => rfl
  | cons p m ih =>
    have hp := h p List.mem_cons_self
    have hne : a ≠ p.1 := by omega
    simp only [Memory.byteAt, if_neg hne]
    exact ih fun q hq => h q (List.mem_cons_of_mem _ hq)

/-- An entry in front of a list of higher addresses. -/
theorem Memory.byteAt_entry_append {m : Memory} {a : Nat} (b : Byte) (h : ∀ p ∈ m, a < p.1) (q : Nat) :
    Memory.byteAt (Memory.entry a b ++ m) q = if q = a then b else m.byteAt q := by
  unfold Memory.entry
  split
  · next hb =>
    by_cases hq : q = a
    · subst hq
      simp [Memory.byteAt_of_lt h, hb]
    · simp [hq]
  · simp [Memory.byteAt]

/-- An entry in front of a canonical list of higher addresses is canonical. -/
theorem Memory.entry_append_wf {m : Memory} {a : Nat} (b : Byte) (hm : m.wf) (h : ∀ p ∈ m, a < p.1)
    (ha : a ≤ Config.memMax) : Memory.wf (Memory.entry a b ++ m) := by
  unfold Memory.entry
  split
  · exact hm
  · next hb => exact Memory.cons_wf hm h ha hb

/-- Reading any address after one byte is written. -/
theorem Memory.byteAt_put {m : Memory} (hm : m.wf) (a : Nat) (b : Byte) (q : Nat) :
    (m.put a b).byteAt q = if q = a then b else m.byteAt q := by
  induction m with
  | nil =>
    rw [show Memory.put [] a b = Memory.entry a b ++ [] from (List.append_nil _).symm]
    exact Memory.byteAt_entry_append b (by simp) q
  | cons p m ih =>
    obtain ⟨a', b'⟩ := p
    obtain ⟨hw, hlt, -, -⟩ := Memory.wf_cons hm
    simp only [Memory.put]
    split
    · next h =>
      refine Memory.byteAt_entry_append b (fun p hp => ?_) q
      rcases List.mem_cons.mp hp with rfl | hp
      · exact h
      · exact lt_trans h (hlt p hp)
    · split
      · next h =>
        subst h
        rw [Memory.byteAt_entry_append b hlt q]
        split
        · rfl
        · next hq => simp [Memory.byteAt, hq]
      · next h1 h2 =>
        simp only [Memory.byteAt, ih hw]
        split
        · next hq =>
          subst hq
          rw [if_neg (fun e => h2 e.symm)]
        · rfl

/-- The addresses listed after one byte is written. -/
theorem Memory.mem_put {m : Memory} {a : Nat} {b : Byte} {p : Host.Cell} (h : p ∈ m.put a b) :
    p.1 = a ∨ p ∈ m := by
  have entry_mem : p ∈ Memory.entry a b → p.1 = a := fun he => by
    unfold Memory.entry at he
    split at he
    · simp at he
    · simp_all
  induction m with
  | nil => exact .inl (entry_mem h)
  | cons c m ih =>
    obtain ⟨a', b'⟩ := c
    simp only [Memory.put] at h
    split at h
    · rcases List.mem_append.mp h with h | h
      · exact .inl (entry_mem h)
      · exact .inr h
    · split at h
      · rcases List.mem_append.mp h with h | h
        · exact .inl (entry_mem h)
        · exact .inr (List.mem_cons_of_mem _ h)
      · rcases List.mem_cons.mp h with rfl | h
        · exact .inr List.mem_cons_self
        · exact (ih h).imp_right (List.mem_cons_of_mem _)

/-- Writing one byte keeps the canonical form. -/
theorem Memory.put_wf {m : Memory} (hm : m.wf) {a : Nat} (b : Byte) (ha : a ≤ Config.memMax) :
    (m.put a b).wf := by
  induction m with
  | nil =>
    rw [show Memory.put [] a b = Memory.entry a b ++ [] from (List.append_nil _).symm]
    exact Memory.entry_append_wf b ⟨.nil, by simp⟩ (by simp) ha
  | cons c m ih =>
    obtain ⟨a', b'⟩ := c
    obtain ⟨hw, hlt, ha', hb'⟩ := Memory.wf_cons hm
    simp only [Memory.put]
    split
    · next h =>
      refine Memory.entry_append_wf b hm (fun p hp => ?_) ha
      rcases List.mem_cons.mp hp with rfl | hp
      · exact h
      · exact lt_trans h (hlt p hp)
    · split
      · next h => exact Memory.entry_append_wf b hw (fun p hp => h ▸ hlt p hp) ha
      · refine Memory.cons_wf (ih hw) (fun p hp => ?_) ha' hb'
        rcases Memory.mem_put hp with h | h
        · omega
        · exact hlt p h

/-- Writing a sequence of bytes inside the array keeps the canonical form. -/
theorem Memory.putAll_wf {m : Memory} (hm : m.wf) (start : Nat) (bytes : List Byte)
    (h : start + bytes.length ≤ Config.memSize) : (m.putAll start bytes).wf := by
  induction bytes generalizing m start with
  | nil => exact hm
  | cons b bs ih =>
    have hs : start + (bs.length + 1) ≤ 4096 := h
    refine ih (Memory.put_wf hm b ?_) (start + 1) ?_
    · show start ≤ 0xFFF
      omega
    · show start + 1 + bs.length ≤ 4096
      omega

/-- `MemWriteBulk` keeps the canonical form. -/
theorem memWriteBulk_wf {m m' : Memory} {bytes : List Byte} {start : Nat} (hm : m.wf)
    (h : memWriteBulk bytes start m = .ok m') : m'.wf := by
  unfold memWriteBulk at h
  split at h
  · cases h
  · cases h
    exact Memory.putAll_wf hm start bytes (by omega)

/-- The program load keeps the canonical form. -/
theorem loadImage_wf {m m' : Memory} {image : Option (List Byte)} (hm : m.wf)
    (h : loadImage image m = .ok m') : m'.wf := by
  cases image with
  | none => cases h
  | some bytes =>
    simp only [loadImage] at h
    split at h
    · cases h
    · exact memWriteBulk_wf hm h

/-- Placing a fetch word keeps the canonical form. -/
theorem storeFetchWord_wf {s : State} (hs : s.mem.wf) (w : Word) : (storeFetchWord s w).mem.wf := by
  unfold storeFetchWord
  split
  · exact hs
  · next h =>
    refine Memory.putAll_wf hs _ _ ?_
    have : ¬ s.pc.toNat + 1 > 0xFFF := h
    show s.pc.toNat + 2 ≤ 4096
    omega

/-- The memory after reset is canonical. -/
theorem reset_mem_wf : State.reset.mem.wf := ⟨.nil, by simp [State.reset]⟩

/-- The glyph preload changes nothing: it writes what an unlisted address reads as. -/
theorem constructMemory_eq : constructMemory = .ok [] := by decide

end Sys2Proof.Machine
end

