-- ==== Sys2Proof/Laws/State.lean ====
section
/-! SUPPORT. One lemma per field per state update, so that no later proof unfolds a record update; and reading a register after writing one. -/

namespace Sys2Proof.Machine

/-! ## `State.writeV` -/

@[simp] theorem writeV_V (s : State) (r : RegIdx) (b : Byte) : (s.writeV r b).V = s.V.set r.val b := rfl
@[simp] theorem writeV_pc (s : State) (r : RegIdx) (b : Byte) : (s.writeV r b).pc = s.pc := rfl
@[simp] theorem writeV_I (s : State) (r : RegIdx) (b : Byte) : (s.writeV r b).I = s.I := rfl
@[simp] theorem writeV_stack (s : State) (r : RegIdx) (b : Byte) : (s.writeV r b).stack = s.stack := rfl
@[simp] theorem writeV_sp (s : State) (r : RegIdx) (b : Byte) : (s.writeV r b).sp = s.sp := rfl
@[simp] theorem writeV_mem (s : State) (r : RegIdx) (b : Byte) : (s.writeV r b).mem = s.mem := rfl
@[simp] theorem writeV_delay (s : State) (r : RegIdx) (b : Byte) : (s.writeV r b).delay = s.delay := rfl
@[simp] theorem writeV_sound (s : State) (r : RegIdx) (b : Byte) : (s.writeV r b).sound = s.sound := rfl
@[simp] theorem writeV_video (s : State) (r : RegIdx) (b : Byte) : (s.writeV r b).video = s.video := rfl
@[simp] theorem writeV_cycleCounter (s : State) (r : RegIdx) (b : Byte) : (s.writeV r b).cycleCounter = s.cycleCounter := rfl
@[simp] theorem writeV_cpt (s : State) (r : RegIdx) (b : Byte) : (s.writeV r b).cpt = s.cpt := rfl
@[simp] theorem writeV_perInstructionDelay (s : State) (r : RegIdx) (b : Byte) : (s.writeV r b).perInstructionDelay = s.perInstructionDelay := rfl
@[simp] theorem writeV_halted (s : State) (r : RegIdx) (b : Byte) : (s.writeV r b).halted = s.halted := rfl
@[simp] theorem writeV_fault (s : State) (r : RegIdx) (b : Byte) : (s.writeV r b).fault = s.fault := rfl

/-! ## `State.writeI` -/

@[simp] theorem writeI_V (s : State) (a : Addr) : (s.writeI a).V = s.V := rfl
@[simp] theorem writeI_pc (s : State) (a : Addr) : (s.writeI a).pc = s.pc := rfl
@[simp] theorem writeI_I (s : State) (a : Addr) : (s.writeI a).I = a := rfl
@[simp] theorem writeI_stack (s : State) (a : Addr) : (s.writeI a).stack = s.stack := rfl
@[simp] theorem writeI_sp (s : State) (a : Addr) : (s.writeI a).sp = s.sp := rfl
@[simp] theorem writeI_mem (s : State) (a : Addr) : (s.writeI a).mem = s.mem := rfl
@[simp] theorem writeI_delay (s : State) (a : Addr) : (s.writeI a).delay = s.delay := rfl
@[simp] theorem writeI_sound (s : State) (a : Addr) : (s.writeI a).sound = s.sound := rfl
@[simp] theorem writeI_video (s : State) (a : Addr) : (s.writeI a).video = s.video := rfl
@[simp] theorem writeI_cycleCounter (s : State) (a : Addr) : (s.writeI a).cycleCounter = s.cycleCounter := rfl
@[simp] theorem writeI_cpt (s : State) (a : Addr) : (s.writeI a).cpt = s.cpt := rfl
@[simp] theorem writeI_perInstructionDelay (s : State) (a : Addr) : (s.writeI a).perInstructionDelay = s.perInstructionDelay := rfl
@[simp] theorem writeI_halted (s : State) (a : Addr) : (s.writeI a).halted = s.halted := rfl
@[simp] theorem writeI_fault (s : State) (a : Addr) : (s.writeI a).fault = s.fault := rfl

/-! ## `advance` -/

@[simp] theorem advance_V (s : State) : (advance s).V = s.V := rfl
@[simp] theorem advance_pc (s : State) : (advance s).pc = s.pc + 2 := rfl
@[simp] theorem advance_I (s : State) : (advance s).I = s.I := rfl
@[simp] theorem advance_stack (s : State) : (advance s).stack = s.stack := rfl
@[simp] theorem advance_sp (s : State) : (advance s).sp = s.sp := rfl
@[simp] theorem advance_mem (s : State) : (advance s).mem = s.mem := rfl
@[simp] theorem advance_delay (s : State) : (advance s).delay = s.delay := rfl
@[simp] theorem advance_sound (s : State) : (advance s).sound = s.sound := rfl
@[simp] theorem advance_video (s : State) : (advance s).video = s.video := rfl
@[simp] theorem advance_cycleCounter (s : State) : (advance s).cycleCounter = s.cycleCounter := rfl
@[simp] theorem advance_cpt (s : State) : (advance s).cpt = s.cpt := rfl
@[simp] theorem advance_perInstructionDelay (s : State) : (advance s).perInstructionDelay = s.perInstructionDelay := rfl
@[simp] theorem advance_halted (s : State) : (advance s).halted = s.halted := rfl
@[simp] theorem advance_fault (s : State) : (advance s).fault = s.fault := rfl

/-! ## `skip` -/

@[simp] theorem skip_V (s : State) : (skip s).V = s.V := rfl
@[simp] theorem skip_pc (s : State) : (skip s).pc = s.pc + 4 := rfl
@[simp] theorem skip_I (s : State) : (skip s).I = s.I := rfl
@[simp] theorem skip_stack (s : State) : (skip s).stack = s.stack := rfl
@[simp] theorem skip_sp (s : State) : (skip s).sp = s.sp := rfl
@[simp] theorem skip_mem (s : State) : (skip s).mem = s.mem := rfl
@[simp] theorem skip_delay (s : State) : (skip s).delay = s.delay := rfl
@[simp] theorem skip_sound (s : State) : (skip s).sound = s.sound := rfl
@[simp] theorem skip_video (s : State) : (skip s).video = s.video := rfl
@[simp] theorem skip_cycleCounter (s : State) : (skip s).cycleCounter = s.cycleCounter := rfl
@[simp] theorem skip_cpt (s : State) : (skip s).cpt = s.cpt := rfl
@[simp] theorem skip_perInstructionDelay (s : State) : (skip s).perInstructionDelay = s.perInstructionDelay := rfl
@[simp] theorem skip_halted (s : State) : (skip s).halted = s.halted := rfl
@[simp] theorem skip_fault (s : State) : (skip s).fault = s.fault := rfl

/-! ## `jump` -/

@[simp] theorem jump_V (s : State) (a : Addr) : (jump a s).V = s.V := rfl
@[simp] theorem jump_pc (s : State) (a : Addr) : (jump a s).pc = a := rfl
@[simp] theorem jump_I (s : State) (a : Addr) : (jump a s).I = s.I := rfl
@[simp] theorem jump_stack (s : State) (a : Addr) : (jump a s).stack = s.stack := rfl
@[simp] theorem jump_sp (s : State) (a : Addr) : (jump a s).sp = s.sp := rfl
@[simp] theorem jump_mem (s : State) (a : Addr) : (jump a s).mem = s.mem := rfl
@[simp] theorem jump_delay (s : State) (a : Addr) : (jump a s).delay = s.delay := rfl
@[simp] theorem jump_sound (s : State) (a : Addr) : (jump a s).sound = s.sound := rfl
@[simp] theorem jump_video (s : State) (a : Addr) : (jump a s).video = s.video := rfl
@[simp] theorem jump_cycleCounter (s : State) (a : Addr) : (jump a s).cycleCounter = s.cycleCounter := rfl
@[simp] theorem jump_cpt (s : State) (a : Addr) : (jump a s).cpt = s.cpt := rfl
@[simp] theorem jump_perInstructionDelay (s : State) (a : Addr) : (jump a s).perInstructionDelay = s.perInstructionDelay := rfl
@[simp] theorem jump_halted (s : State) (a : Addr) : (jump a s).halted = s.halted := rfl
@[simp] theorem jump_fault (s : State) (a : Addr) : (jump a s).fault = s.fault := rfl

/-! ## `raiseFault` -/

@[simp] theorem raiseFault_V (s : State) (r : FaultRecord) : (raiseFault r s).V = s.V := rfl
@[simp] theorem raiseFault_pc (s : State) (r : FaultRecord) : (raiseFault r s).pc = s.pc := rfl
@[simp] theorem raiseFault_I (s : State) (r : FaultRecord) : (raiseFault r s).I = s.I := rfl
@[simp] theorem raiseFault_stack (s : State) (r : FaultRecord) : (raiseFault r s).stack = s.stack := rfl
@[simp] theorem raiseFault_sp (s : State) (r : FaultRecord) : (raiseFault r s).sp = s.sp := rfl
@[simp] theorem raiseFault_mem (s : State) (r : FaultRecord) : (raiseFault r s).mem = s.mem := rfl
@[simp] theorem raiseFault_delay (s : State) (r : FaultRecord) : (raiseFault r s).delay = s.delay := rfl
@[simp] theorem raiseFault_sound (s : State) (r : FaultRecord) : (raiseFault r s).sound = s.sound := rfl
@[simp] theorem raiseFault_video (s : State) (r : FaultRecord) : (raiseFault r s).video = s.video := rfl
@[simp] theorem raiseFault_cycleCounter (s : State) (r : FaultRecord) : (raiseFault r s).cycleCounter = s.cycleCounter := rfl
@[simp] theorem raiseFault_cpt (s : State) (r : FaultRecord) : (raiseFault r s).cpt = s.cpt := rfl
@[simp] theorem raiseFault_perInstructionDelay (s : State) (r : FaultRecord) : (raiseFault r s).perInstructionDelay = s.perInstructionDelay := rfl
@[simp] theorem raiseFault_halted (s : State) (r : FaultRecord) : (raiseFault r s).halted = true := rfl
@[simp] theorem raiseFault_fault (s : State) (r : FaultRecord) : (raiseFault r s).fault = some r := rfl

/-! ## `videoClear` -/

@[simp] theorem videoClear_V (s : State) : (videoClear s).V = s.V := rfl
@[simp] theorem videoClear_pc (s : State) : (videoClear s).pc = s.pc := rfl
@[simp] theorem videoClear_I (s : State) : (videoClear s).I = s.I := rfl
@[simp] theorem videoClear_stack (s : State) : (videoClear s).stack = s.stack := rfl
@[simp] theorem videoClear_sp (s : State) : (videoClear s).sp = s.sp := rfl
@[simp] theorem videoClear_mem (s : State) : (videoClear s).mem = s.mem := rfl
@[simp] theorem videoClear_delay (s : State) : (videoClear s).delay = s.delay := rfl
@[simp] theorem videoClear_sound (s : State) : (videoClear s).sound = s.sound := rfl
@[simp] theorem videoClear_video (s : State) : (videoClear s).video = clearVideo := rfl
@[simp] theorem videoClear_cycleCounter (s : State) : (videoClear s).cycleCounter = s.cycleCounter := rfl
@[simp] theorem videoClear_cpt (s : State) : (videoClear s).cpt = s.cpt := rfl
@[simp] theorem videoClear_perInstructionDelay (s : State) : (videoClear s).perInstructionDelay = s.perInstructionDelay := rfl
@[simp] theorem videoClear_halted (s : State) : (videoClear s).halted = s.halted := rfl
@[simp] theorem videoClear_fault (s : State) : (videoClear s).fault = s.fault := rfl

/-! ## `countCycle` -/

@[simp] theorem countCycle_V (s : State) : (countCycle s).V = s.V := rfl
@[simp] theorem countCycle_pc (s : State) : (countCycle s).pc = s.pc := rfl
@[simp] theorem countCycle_I (s : State) : (countCycle s).I = s.I := rfl
@[simp] theorem countCycle_stack (s : State) : (countCycle s).stack = s.stack := rfl
@[simp] theorem countCycle_sp (s : State) : (countCycle s).sp = s.sp := rfl
@[simp] theorem countCycle_mem (s : State) : (countCycle s).mem = s.mem := rfl
@[simp] theorem countCycle_delay (s : State) : (countCycle s).delay = s.delay := rfl
@[simp] theorem countCycle_sound (s : State) : (countCycle s).sound = s.sound := rfl
@[simp] theorem countCycle_video (s : State) : (countCycle s).video = s.video := rfl
@[simp] theorem countCycle_cycleCounter (s : State) : (countCycle s).cycleCounter = s.cycleCounter + 1 := rfl
@[simp] theorem countCycle_cpt (s : State) : (countCycle s).cpt = s.cpt := rfl
@[simp] theorem countCycle_perInstructionDelay (s : State) : (countCycle s).perInstructionDelay = s.perInstructionDelay := rfl
@[simp] theorem countCycle_halted (s : State) : (countCycle s).halted = s.halted := rfl
@[simp] theorem countCycle_fault (s : State) : (countCycle s).fault = s.fault := rfl

/-! ## Register reads -/

@[simp] theorem readV_writeV_same (s : State) (r : RegIdx) (b : Byte) : (s.writeV r b).readV r = b := by
  simp [State.readV]

theorem readV_writeV_ne (s : State) (r q : RegIdx) (b : Byte) (h : q ≠ r) :
    (s.writeV r b).readV q = s.readV q := by
  have : r.val ≠ q.val := fun e => h (Fin.ext e.symm)
  simp [State.readV, this]

/-- A register after a register write. -/
theorem readV_writeV (s : State) (r q : RegIdx) (b : Byte) :
    (s.writeV r b).readV q = if q = r then b else s.readV q := by
  split
  · next h => rw [h, readV_writeV_same]
  · next h => exact readV_writeV_ne s r q b h

@[simp] theorem readV_writeI (s : State) (a : Addr) (q : RegIdx) : (s.writeI a).readV q = s.readV q := rfl
@[simp] theorem readV_advance (s : State) (q : RegIdx) : (advance s).readV q = s.readV q := rfl
@[simp] theorem readV_skip (s : State) (q : RegIdx) : (skip s).readV q = s.readV q := rfl
@[simp] theorem readV_jump (s : State) (a : Addr) (q : RegIdx) : (jump a s).readV q = s.readV q := rfl
@[simp] theorem readV_raiseFault (s : State) (r : FaultRecord) (q : RegIdx) : (raiseFault r s).readV q = s.readV q := rfl
@[simp] theorem readV_videoClear (s : State) (q : RegIdx) : (videoClear s).readV q = s.readV q := rfl
@[simp] theorem readV_countCycle (s : State) (q : RegIdx) : (countCycle s).readV q = s.readV q := rfl

end Sys2Proof.Machine
end

