-- ==== Sys2Proof/Laws/Ops.lean ====
section
/-! SUPPORT. What each shared operation can do, said once. -/

namespace Sys2Proof.Machine

/-- The pc after a conditional skip, and that nothing else changes. -/
theorem skipIf_eq (c : Bool) (s : State) : skipIf c s = { s with pc := if c then s.pc + 4 else s.pc + 2 } := by
  cases c <;> rfl

/-- Everything a push can do. -/
theorem push_eq_some {v : Addr} {s t : State} (h : push v s = some t) :
    ∃ hs : s.sp.val < 16, t = { s with
      stack := s.stack.set s.sp.val v hs, sp := ⟨s.sp.val + 1, Nat.succ_lt_succ hs⟩ } := by
  unfold push at h
  split at h
  · next hs => exact ⟨hs, (Option.some.inj h).symm⟩
  · cases h

/-- A push is refused exactly when sixteen entries are held. -/
theorem push_eq_none {v : Addr} {s : State} : push v s = none ↔ s.sp.val = 16 := by
  unfold push
  split
  · next h =>
    have : s.sp.val < 16 := h
    simp
    omega
  · next h =>
    have : ¬ s.sp.val < 16 := h
    have := s.sp.isLt
    simp
    omega

/-- Everything a pop can do. -/
theorem pop_eq_some {a : Addr} {s t : State} (h : pop s = some (a, t)) :
    ∃ _ : 0 < s.sp.val, a = s.stack[s.sp.val - 1] ∧ t = { s with sp := ⟨s.sp.val - 1, by omega⟩ } := by
  unfold pop at h
  split at h
  · next hs =>
    cases h
    exact ⟨hs, rfl, rfl⟩
  · cases h

/-- A pop is refused exactly when no entry is held. -/
theorem pop_eq_none {s : State} : pop s = none ↔ s.sp.val = 0 := by
  unfold pop
  split
  · simp
    omega
  · simp
    omega

/-- A memory read inside the array. -/
theorem memRead_of_le {s : State} {a : Nat} (h : a ≤ 0xFFF) : memRead s a = .ok (s.mem.byteAt a) := by
  have : ¬ a > Config.memMax := by
    show ¬ a > 0xFFF
    omega
  simp [memRead, this]

/-- A memory read beyond the array. -/
theorem memRead_of_gt {s : State} {a : Nat} (h : 0xFFF < a) : memRead s a = .error (.execMemBounds a) := by
  have : a > Config.memMax := h
  simp [memRead, this]

/-- A fetch of two bytes inside the array. -/
theorem fetch_of_le {s : State} (h : s.pc.toNat + 1 ≤ 0xFFF) :
    fetch s = .ok (wordOfBytes (s.mem.byteAt s.pc.toNat) (s.mem.byteAt (s.pc.toNat + 1))) := by
  simp [fetch, memRead_of_le (s := s) (a := s.pc.toNat) (by omega), memRead_of_le h]

/-- A fetch beyond the array, with the address its fault records. -/
theorem fetch_of_gt {s : State} (h : 0xFFF < s.pc.toNat + 1) :
    fetch s = .error (.execMemBounds (if s.pc.toNat = 0xFFF then 0x1000 else s.pc.toNat)) := by
  by_cases h1 : s.pc.toNat = 0xFFF
  · simp [fetch, h1, memRead_of_le, memRead_of_gt]
  · simp [fetch, h1, memRead_of_gt (s := s) (a := s.pc.toNat) (by omega)]

/-- What a counter tick does when it is due. -/
theorem tickIfDue_of_eq {s : State} (h : s.cycleCounter = s.cpt) :
    tickIfDue s = { s with delay := dec s.delay, sound := dec s.sound, cycleCounter := 0 } := if_pos h

/-- No tick when it is not due. -/
theorem tickIfDue_of_ne {s : State} (h : s.cycleCounter ≠ s.cpt) : tickIfDue s = s := if_neg h

/-- A tick touches the two counters and the cycle counter only. -/
theorem tickIfDue_frame (s : State) : tickIfDue s = { s with
    delay := (tickIfDue s).delay, sound := (tickIfDue s).sound, cycleCounter := (tickIfDue s).cycleCounter } := by
  by_cases h : s.cycleCounter = s.cpt
  · rw [tickIfDue_of_eq h]
  · rw [tickIfDue_of_ne h]

/-- A flag and a result written in the order LATCHED: registers after it. -/
theorem readV_writeLatched (x : RegIdx) (f r : State → Byte) (s : State) (q : RegIdx) :
    (writeFlagAndResult .latched x f r s).readV q =
      if q = flagReg then f s else if q = x then r s else s.readV q := by
  simp [writeFlagAndResult, readV_writeV]

/-- A flag and a result written in the order AS_LISTED: registers after it. -/
theorem readV_writeListed (x : RegIdx) (f r : State → Byte) (s : State) (q : RegIdx) :
    (writeFlagAndResult .asListed x f r s).readV q =
      if q = x then r (s.writeV flagReg (f s)) else if q = flagReg then f s else s.readV q := by
  simp [writeFlagAndResult, readV_writeV]

/-- A flag and a result are register writes only. -/
theorem writeFlagAndResult_frame (o : AluOrder) (x : RegIdx) (f r : State → Byte) (s : State) :
    writeFlagAndResult o x f r s = { s with V := (writeFlagAndResult o x f r s).V } := by
  cases o <;> rfl

/-- A halted block has no step. -/
theorem step_of_halted {s : State} (h : s.halted = true) : step s = .fault (.halted s.fault) := by
  simp [step, runLoopIteration, h]

/-- A step of a block that is not halted is the engine step after the due tick, then the count. -/
theorem step_of_live {s : State} (h : s.halted = false) : step s =
    match engineStep (tickIfDue s) with
    | .next t => .next (endIteration t)
    | .fault f => .fault f
    | .refused r => .refused r := by
  cases he : engineStep (tickIfDue s) <;> simp [step, runLoopIteration, h, he]

end Sys2Proof.Machine
end

