-- ==== Sys2Proof/Laws/PerInstr.lean ====
section
/-! SUPPORT. Laws stated per instruction. The family EncodeRow: an instruction's word matches the instruction's own row of the opcode table (spec 30_encoding.md R84, R85), and an unmatched word matches none (R86). -/

namespace Sys2Proof.Laws

/-- The word of a well-formed instruction matches the row the instruction's constructor stands for. -/
def EncodeRow.Statement (i : Instr) : Prop :=
  i.WellFormed →
    (i.row ≤ 21 → ∃ r ∈ opcodeTable, r.row = i.row ∧ r.matchesWord (encode i)) ∧
    (i.row = 22 → isUnmatchedWord (encode i))

/-- A row of the table that matches the word settles the statement for an instruction of that row. -/
theorem EncodeRow.of_row {i : Instr} (r : OpcodeRow) (hr : r ∈ opcodeTable) (h : r.row = i.row) (hle : r.row ≤ 21)
    (hm : r.matchesWord (encode i)) : EncodeRow.Statement i :=
  fun _ => ⟨fun _ => ⟨r, hr, h, hm⟩, fun h22 => by omega⟩

theorem matches_wordNnn (op : BitVec 4) (nnn : Addr12) : wordNnn op nnn &&& 0xF000#16 = wordNnn op 0#12 := by
  apply BitVec.eq_of_toNat_eq
  rw [maskOp_toNat, opField_wordNnn, wordNnn_toNat]
  simp

theorem matches_wordXkk (op : BitVec 4) (x : RegIdx) (kk : Byte) :
    wordXkk op x kk &&& 0xF000#16 = wordNnn op 0#12 := by
  apply BitVec.eq_of_toNat_eq
  rw [maskOp_toNat, opField_wordXkk, wordNnn_toNat]
  simp

theorem matches_wordXy (op : BitVec 4) (x y : RegIdx) (n : BitVec 4) :
    wordXy op x y n &&& 0xF00F#16 = wordXy op 0 0 n := by
  apply BitVec.eq_of_toNat_eq
  rw [maskOpN_toNat, opField_wordXy, nField_wordXy, wordXy_toNat]
  simp

theorem matches_wordX (op : BitVec 4) (x : RegIdx) (n : BitVec 4) :
    wordXy op x 0 n &&& 0xF0FF#16 = wordXy op 0 0 n := by
  apply BitVec.eq_of_toNat_eq
  have h := n.isLt
  rw [maskOpKk_toNat, opField_wordXy, kkField_toNat, wordXy_toNat, wordXy_toNat]
  simp
  omega

theorem EncodeRow.cls : EncodeRow.Statement .cls :=
  EncodeRow.of_row ⟨1, 0xFFFF#16, 0x00E0#16⟩ (by decide) rfl (by decide) rfl

theorem EncodeRow.ret : EncodeRow.Statement .ret :=
  EncodeRow.of_row ⟨2, 0xFFFF#16, 0x00EE#16⟩ (by decide) rfl (by decide) rfl

theorem EncodeRow.jp (nnn : Addr12) : EncodeRow.Statement (.jp nnn) :=
  EncodeRow.of_row ⟨3, 0xF000#16, 0x1000#16⟩ (by decide) rfl (by decide) (matches_wordNnn 0x1 nnn)

theorem EncodeRow.call (nnn : Addr12) : EncodeRow.Statement (.call nnn) :=
  EncodeRow.of_row ⟨4, 0xF000#16, 0x2000#16⟩ (by decide) rfl (by decide) (matches_wordNnn 0x2 nnn)

theorem EncodeRow.seByte (x : RegIdx) (kk : Byte) : EncodeRow.Statement (.seByte x kk) :=
  EncodeRow.of_row ⟨5, 0xF000#16, 0x3000#16⟩ (by decide) rfl (by decide) (matches_wordXkk 0x3 x kk)

theorem EncodeRow.sneByte (x : RegIdx) (kk : Byte) : EncodeRow.Statement (.sneByte x kk) :=
  EncodeRow.of_row ⟨6, 0xF000#16, 0x4000#16⟩ (by decide) rfl (by decide) (matches_wordXkk 0x4 x kk)

theorem EncodeRow.seReg (x : RegIdx) (y : RegIdx) : EncodeRow.Statement (.seReg x y) :=
  EncodeRow.of_row ⟨7, 0xF00F#16, 0x5000#16⟩ (by decide) rfl (by decide) (matches_wordXy 0x5 x y 0x0)

theorem EncodeRow.ldByte (x : RegIdx) (kk : Byte) : EncodeRow.Statement (.ldByte x kk) :=
  EncodeRow.of_row ⟨8, 0xF000#16, 0x6000#16⟩ (by decide) rfl (by decide) (matches_wordXkk 0x6 x kk)

theorem EncodeRow.addByte (x : RegIdx) (kk : Byte) : EncodeRow.Statement (.addByte x kk) :=
  EncodeRow.of_row ⟨9, 0xF000#16, 0x7000#16⟩ (by decide) rfl (by decide) (matches_wordXkk 0x7 x kk)

theorem EncodeRow.ldReg (x : RegIdx) (y : RegIdx) : EncodeRow.Statement (.ldReg x y) :=
  EncodeRow.of_row ⟨10, 0xF00F#16, 0x8000#16⟩ (by decide) rfl (by decide) (matches_wordXy 0x8 x y 0x0)

theorem EncodeRow.orReg (x : RegIdx) (y : RegIdx) : EncodeRow.Statement (.orReg x y) :=
  EncodeRow.of_row ⟨11, 0xF00F#16, 0x8001#16⟩ (by decide) rfl (by decide) (matches_wordXy 0x8 x y 0x1)

theorem EncodeRow.andReg (x : RegIdx) (y : RegIdx) : EncodeRow.Statement (.andReg x y) :=
  EncodeRow.of_row ⟨12, 0xF00F#16, 0x8002#16⟩ (by decide) rfl (by decide) (matches_wordXy 0x8 x y 0x2)

theorem EncodeRow.xorReg (x : RegIdx) (y : RegIdx) : EncodeRow.Statement (.xorReg x y) :=
  EncodeRow.of_row ⟨13, 0xF00F#16, 0x8003#16⟩ (by decide) rfl (by decide) (matches_wordXy 0x8 x y 0x3)

theorem EncodeRow.addReg (x : RegIdx) (y : RegIdx) : EncodeRow.Statement (.addReg x y) :=
  EncodeRow.of_row ⟨14, 0xF00F#16, 0x8004#16⟩ (by decide) rfl (by decide) (matches_wordXy 0x8 x y 0x4)

theorem EncodeRow.subReg (x : RegIdx) (y : RegIdx) : EncodeRow.Statement (.subReg x y) :=
  EncodeRow.of_row ⟨15, 0xF00F#16, 0x8005#16⟩ (by decide) rfl (by decide) (matches_wordXy 0x8 x y 0x5)

theorem EncodeRow.shr (x : RegIdx) : EncodeRow.Statement (.shr x) :=
  EncodeRow.of_row ⟨16, 0xF0FF#16, 0x8006#16⟩ (by decide) rfl (by decide) (matches_wordX 0x8 x 0x6)

theorem EncodeRow.subnReg (x : RegIdx) (y : RegIdx) : EncodeRow.Statement (.subnReg x y) :=
  EncodeRow.of_row ⟨17, 0xF00F#16, 0x8007#16⟩ (by decide) rfl (by decide) (matches_wordXy 0x8 x y 0x7)

theorem EncodeRow.shl (x : RegIdx) : EncodeRow.Statement (.shl x) :=
  EncodeRow.of_row ⟨18, 0xF0FF#16, 0x800E#16⟩ (by decide) rfl (by decide) (matches_wordX 0x8 x 0xE)

theorem EncodeRow.sneReg (x : RegIdx) (y : RegIdx) : EncodeRow.Statement (.sneReg x y) :=
  EncodeRow.of_row ⟨19, 0xF00F#16, 0x9000#16⟩ (by decide) rfl (by decide) (matches_wordXy 0x9 x y 0x0)

theorem EncodeRow.ldI (nnn : Addr12) : EncodeRow.Statement (.ldI nnn) :=
  EncodeRow.of_row ⟨20, 0xF000#16, 0xA000#16⟩ (by decide) rfl (by decide) (matches_wordNnn 0xA nnn)

theorem EncodeRow.jpV0 (nnn : Addr12) : EncodeRow.Statement (.jpV0 nnn) :=
  EncodeRow.of_row ⟨21, 0xF000#16, 0xB000#16⟩ (by decide) rfl (by decide) (matches_wordNnn 0xB nnn)

theorem EncodeRow.unmatched (w : Word) : EncodeRow.Statement (.unmatched w) :=
  fun h => ⟨fun hle => absurd (show 22 ≤ 21 from hle) (by decide), fun _ => of_decide_eq_true h⟩

end Sys2Proof.Laws
end

