-- ==== Sys2Proof/Laws/Step.lean ====
section
/-! SUPPORT. What a step can do, said once: the tick's frame, that every meaning answers a next state, the two cases of a step, and one step of a run. -/

namespace Sys2Proof.Machine

/-! ## The tick changes the counters only -/

@[simp] theorem tickIfDue_V (s : State) : (tickIfDue s).V = s.V := by rw [tickIfDue_frame]
@[simp] theorem tickIfDue_pc (s : State) : (tickIfDue s).pc = s.pc := by rw [tickIfDue_frame]
@[simp] theorem tickIfDue_I (s : State) : (tickIfDue s).I = s.I := by rw [tickIfDue_frame]
@[simp] theorem tickIfDue_stack (s : State) : (tickIfDue s).stack = s.stack := by rw [tickIfDue_frame]
@[simp] theorem tickIfDue_sp (s : State) : (tickIfDue s).sp = s.sp := by rw [tickIfDue_frame]
@[simp] theorem tickIfDue_mem (s : State) : (tickIfDue s).mem = s.mem := by rw [tickIfDue_frame]
@[simp] theorem tickIfDue_video (s : State) : (tickIfDue s).video = s.video := by rw [tickIfDue_frame]
@[simp] theorem tickIfDue_cpt (s : State) : (tickIfDue s).cpt = s.cpt := by rw [tickIfDue_frame]
@[simp] theorem tickIfDue_perInstructionDelay (s : State) :
    (tickIfDue s).perInstructionDelay = s.perInstructionDelay := by rw [tickIfDue_frame]
@[simp] theorem tickIfDue_halted (s : State) : (tickIfDue s).halted = s.halted := by rw [tickIfDue_frame]
@[simp] theorem tickIfDue_fault (s : State) : (tickIfDue s).fault = s.fault := by rw [tickIfDue_frame]

/-- The fetch is the same before and after the tick. -/
@[simp] theorem fetch_tickIfDue (s : State) : fetch (tickIfDue s) = fetch s := by simp [fetch, memRead]

/-! ## Meanings and steps -/

/-- Every meaning answers a next state: no instruction of this hardware is refused or stops the machine without one. -/
theorem exec_answers_next (i : Instr) (s : State) : ∃ t, exec i s = .next t := by
  cases i
  case ret => simp only [exec, execRet]; split <;> exact ⟨_, rfl⟩
  case call => simp only [exec, execCall]; split <;> exact ⟨_, rfl⟩
  all_goals exact ⟨_, rfl⟩

/-- A step that answers a next state started from a block that was not halted. -/
theorem live_of_step {s t : State} (h : step s = .next t) : s.halted = false := by
  by_contra hh
  rw [step_of_halted (by simpa using hh)] at h
  cases h

/-- Everything a step can do: its fetch faulted, or the decoded instruction ran after the due tick. -/
theorem step_next_cases {s t : State} (h : step s = .next t) :
    (∃ r, fetch s = .error r ∧ t = raiseFault r (tickIfDue s)) ∨
    (∃ w u, fetch s = .ok w ∧ exec (decodeWord w) (tickIfDue s) = .next u ∧ t = endIteration u) := by
  rw [step_of_live (live_of_step h), engineStep, fetch_tickIfDue] at h
  cases hf : fetch s with
  | error r =>
    rw [hf] at h
    exact .inl ⟨r, rfl, by simpa [endIteration] using h.symm⟩
  | ok w =>
    rw [hf] at h
    obtain ⟨u, hu⟩ := exec_answers_next (decodeWord w) (tickIfDue s)
    simp only [hu] at h
    exact .inr ⟨w, u, rfl, hu, by cases h; rfl⟩

/-! ## Runs -/

/-- One more step of a run of any machine. -/
theorem coreRun_next (M : Host.Core) (n : Nat) {s s' : M.State} (h : M.step s = .next s') :
    M.run (n + 1) s = M.run n s' := by
  simp [Host.Core.run, h]

/-- One more step of a run, for this machine. -/
theorem run_next (n : Nat) {s s' : State} (h : step s = .next s') :
    Host.Core.run core (n + 1) s = Host.Core.run core n s' := coreRun_next core n h

/-- A run of this machine that reaches a state took its first step. -/
theorem run_succ_inv {n : Nat} {s t : State} (h : Host.Core.run core (n + 1) s = .next t) :
    ∃ s' : State, step s = .next s' ∧ Host.Core.run core n s' = .next t := by
  have general : ∀ (M : Host.Core) (s t : M.State), M.run (n + 1) s = .next t →
      ∃ s', M.step s = .next s' ∧ M.run n s' = .next t := by
    intro M s t h
    rw [Host.Core.run] at h
    cases hs : M.step s with
    | next s' => exact ⟨s', rfl, by simpa [hs] using h⟩
    | fault f => simp [hs] at h
    | refused r => simp [hs] at h
  exact general core s t h

end Sys2Proof.Machine
end

