-- ==== Sys2Proof/Machine/Listing.lean ====
section
/-! DEFINITION. The assembler spelling of an instruction (spec 30_encoding.md R89; informative there: no rule depends on it). -/

namespace Sys2Proof.Machine

/-- A hexadecimal digit. -/
def hexDigit (n : Nat) : Char := "0123456789ABCDEF".toList.getD (n % 16) '0'

/-- A number in exactly `digits` hexadecimal digits. -/
def hexDigits : Nat → Nat → List Char
  | 0, _ => []
  | digits + 1, n => hexDigits digits (n / 16) ++ [hexDigit n]

/-- A register's name, `V0` to `VF`. -/
def regText (r : RegIdx) : List Char := ['V', hexDigit r.val]

/-- A byte operand. -/
def byteText (kk : Byte) : List Char := ['0', 'x'] ++ hexDigits 2 kk.toNat

/-- An address operand. -/
def addrText (nnn : Addr12) : List Char := ['0', 'x'] ++ hexDigits 3 nnn.toNat

/-- A mnemonic followed by its first operand. -/
def spell1 (mnemonic : String) (a : List Char) : List Char := mnemonic.toList ++ [' '] ++ a

/-- A mnemonic followed by two operands. -/
def spell2 (mnemonic : String) (a b : List Char) : List Char := spell1 mnemonic a ++ [',', ' '] ++ b

/-- The spelling of R89 for every row, and `.word 0xHHHH` for an unmatched word. -/
def listing : Instr → List Char
  | .cls => "CLS".toList
  | .ret => "RET".toList
  | .jp nnn => spell1 "JP" (addrText nnn)
  | .call nnn => spell1 "CALL" (addrText nnn)
  | .seByte x kk => spell2 "SE" (regText x) (byteText kk)
  | .sneByte x kk => spell2 "SNE" (regText x) (byteText kk)
  | .seReg x y => spell2 "SE" (regText x) (regText y)
  | .ldByte x kk => spell2 "LD" (regText x) (byteText kk)
  | .addByte x kk => spell2 "ADD" (regText x) (byteText kk)
  | .ldReg x y => spell2 "LD" (regText x) (regText y)
  | .orReg x y => spell2 "OR" (regText x) (regText y)
  | .andReg x y => spell2 "AND" (regText x) (regText y)
  | .xorReg x y => spell2 "XOR" (regText x) (regText y)
  | .addReg x y => spell2 "ADD" (regText x) (regText y)
  | .subReg x y => spell2 "SUB" (regText x) (regText y)
  | .shr x => spell1 "SHR" (regText x)
  | .subnReg x y => spell2 "SUBN" (regText x) (regText y)
  | .shl x => spell1 "SHL" (regText x)
  | .sneReg x y => spell2 "SNE" (regText x) (regText y)
  | .ldI nnn => spell2 "LD" ['I'] (addrText nnn)
  | .jpV0 nnn => spell2 "JP" (regText 0) (addrText nnn)
  | .unmatched w => spell1 ".word" (['0', 'x'] ++ hexDigits 4 w.toNat)

end Sys2Proof.Machine
end

