-- ==== Sys2Proof/Tests/Slice0.lean ====
section
/-! SUPPORT. Tests, their expected values from the spec (95_test_vectors.md unless another file is named), and a witness for every statement that has hypotheses. -/

namespace Sys2Proof.Tests

open Sys2Proof Sys2Proof.Machine Sys2Proof.Claims

/-! ## WellFormed: the one check, refusing an ill-formed term (30_encoding.md R86) -/

theorem test_wf_refuses_a_matched_word_as_unmatched : ¬ (Instr.unmatched 0x00E0#16).WellFormed := by decide
theorem test_wf_refuses_a_shift_word_as_unmatched : ¬ (Instr.unmatched 0x8106#16).WellFormed := by decide
theorem test_wf_accepts_an_unmatched_word : (Instr.unmatched 0x8126#16).WellFormed := by decide

/-! ## Decode: one word per constructor, written bit by bit from the encodings of the instruction rules -/

theorem test_decode_cls : decodeWord 0b0000000011100000#16 = .cls := by decide
theorem test_decode_ret : decodeWord 0b0000000011101110#16 = .ret := by decide
theorem test_decode_jp : decodeWord 0b0001001000110100#16 = .jp 0x234#12 := by decide
theorem test_decode_call : decodeWord 0b0010001100000000#16 = .call 0x300#12 := by decide
theorem test_decode_seByte : decodeWord 0b0011001100101010#16 = .seByte 3 0x2A#8 := by decide
theorem test_decode_sneByte : decodeWord 0b0100001100101011#16 = .sneByte 3 0x2B#8 := by decide
theorem test_decode_seReg : decodeWord 0b0101000100100000#16 = .seReg 1 2 := by decide
theorem test_decode_ldByte : decodeWord 0b0110101000001111#16 = .ldByte 10 0x0F#8 := by decide
theorem test_decode_addByte : decodeWord 0b0111000100100000#16 = .addByte 1 0x20#8 := by decide
theorem test_decode_ldReg : decodeWord 0b1000000100100000#16 = .ldReg 1 2 := by decide
theorem test_decode_orReg : decodeWord 0b1000000100100001#16 = .orReg 1 2 := by decide
theorem test_decode_andReg : decodeWord 0b1000000100100010#16 = .andReg 1 2 := by decide
theorem test_decode_xorReg : decodeWord 0b1000000100100011#16 = .xorReg 1 2 := by decide
theorem test_decode_addReg : decodeWord 0b1000101010110100#16 = .addReg 10 11 := by decide
theorem test_decode_subReg : decodeWord 0b1000000100100101#16 = .subReg 1 2 := by decide
theorem test_decode_shr : decodeWord 0b1000000100000110#16 = .shr 1 := by decide
theorem test_decode_subnReg : decodeWord 0b1000000100100111#16 = .subnReg 1 2 := by decide
theorem test_decode_shl : decodeWord 0b1000000100001110#16 = .shl 1 := by decide
theorem test_decode_sneReg : decodeWord 0b1001000100100000#16 = .sneReg 1 2 := by decide
theorem test_decode_ldI : decodeWord 0b1010000100100011#16 = .ldI 0x123#12 := by decide
theorem test_decode_jpV0 : decodeWord 0b1011001000001000#16 = .jpV0 0x208#12 := by decide
theorem test_decode_unmatched : decodeWord 0b1111000000001010#16 = .unmatched 0xF00A#16 := by decide

/-- The examples of the unmatched spaces in 30_encoding.md R86. -/
theorem test_decode_unmatched_examples :
    decodeWord 0x0000#16 = .unmatched 0x0000#16 ∧
    decodeWord 0x0123#16 = .unmatched 0x0123#16 ∧
    decodeWord 0x00E1#16 = .unmatched 0x00E1#16 ∧
    decodeWord 0x5121#16 = .unmatched 0x5121#16 ∧
    decodeWord 0x8128#16 = .unmatched 0x8128#16 ∧
    decodeWord 0x812F#16 = .unmatched 0x812F#16 ∧
    decodeWord 0x8126#16 = .unmatched 0x8126#16 ∧
    decodeWord 0x812E#16 = .unmatched 0x812E#16 ∧
    decodeWord 0x9121#16 = .unmatched 0x9121#16 ∧
    decodeWord 0xC0FF#16 = .unmatched 0xC0FF#16 ∧
    decodeWord 0xD015#16 = .unmatched 0xD015#16 ∧
    decodeWord 0xE09E#16 = .unmatched 0xE09E#16 ∧
    decodeWord 0xFFFF#16 = .unmatched 0xFFFF#16 :=
  ⟨rfl, rfl, rfl, rfl, rfl, rfl, rfl, rfl, rfl, rfl, rfl, rfl, rfl⟩

/-- With SHIFT_Y_DONT_CARE = true the shift words with y ≠ 0 are shifts (section 2.1). -/
theorem test_decode_shift_y_dont_care :
    decodeWordWith true 0x8126#16 = .shr 1 ∧ decodeWordWith true 0x812E#16 = .shl 1 := by decide

theorem test_decode_table_word : decodeTableWord 16 0x8AB4 = some (.addReg 10 11) := by decide

/-! ## One step of one word placed at the pc -/

/-- A state after reset but for the pc and some registers. -/
def preset (pc : Addr) (regs : List (RegIdx × Byte)) : State :=
  regs.foldl (fun s p => s.writeV p.1 p.2) { State.reset with pc := pc }

/-- The state one step of a word leads to. -/
def ran (s : State) (w : Nat) : State :=
  match step (s.withFetchWord 16 w) with
  | .next t => t
  | .fault _ => s
  | .refused _ => s

theorem test_cls : ((ran { preset 0x200#16 [] with
    video := Vector.replicate 64 (Vector.replicate 32 true) } 0x00E0).video[63])[31] = false ∧
    (ran (preset 0xFFE#16 []) 0x00E0).pc = 0x1000#16 := by decide

theorem test_ret : (ran { preset 0x300#16 [] with sp := 1, stack := Vector.replicate 16 0x202#16 } 0x00EE).pc = 0x202#16 ∧
    (ran { preset 0x300#16 [] with sp := 1, stack := Vector.replicate 16 0x202#16 } 0x00EE).sp = 0 := by decide

/-- Program P5. -/
theorem test_ret_empty : (ran State.reset 0x00EE).fault = some (.execStackUnderflow 0x200#16) ∧
    (ran State.reset 0x00EE).cycleCounter = 0 ∧ (ran State.reset 0x00EE).pc = 0x200#16 := by decide

theorem test_jp : (ran (preset 0x200#16 []) 0x1201).pc = 0x201#16 := by decide

theorem test_call : (ran (preset 0xFFE#16 []) 0x2300).stack[0] = 0x1000#16 ∧
    (ran (preset 0xFFE#16 []) 0x2300).sp = 1 ∧ (ran (preset 0xFFE#16 []) 0x2300).pc = 0x300#16 := by decide

theorem test_call_full : (ran { State.reset with sp := 16 } 0x2300).fault = some (.execStackOverflow 0x200#16) ∧
    (ran { State.reset with sp := 16 } 0x2300).sp = 16 := by decide

theorem test_seByte : (ran (preset 0x200#16 [(3, 0x2A)]) 0x332A).pc = 0x204#16 ∧
    (ran (preset 0x200#16 [(3, 0x2A)]) 0x332B).pc = 0x202#16 := by decide

theorem test_sneByte : (ran (preset 0x200#16 [(3, 0x2A)]) 0x432B).pc = 0x204#16 ∧
    (ran (preset 0x200#16 [(3, 0x2A)]) 0x432A).pc = 0x202#16 := by decide

theorem test_seReg : (ran (preset 0x200#16 [(1, 7), (2, 7)]) 0x5120).pc = 0x204#16 ∧
    (ran (preset 0x200#16 [(1, 7), (2, 8)]) 0x5120).pc = 0x202#16 := by decide

theorem test_sneReg : (ran (preset 0x200#16 [(1, 7), (2, 8)]) 0x9120).pc = 0x204#16 ∧
    (ran (preset 0x200#16 [(1, 7)]) 0x9110).pc = 0x202#16 := by decide

theorem test_ldByte : (ran (preset 0x200#16 []) 0x6A0F).readV 10 = 0x0F#8 ∧
    (ran (preset 0x200#16 []) 0x6A0F).pc = 0x202#16 := by decide

theorem test_addByte : (ran (preset 0x200#16 [(1, 0xF0)]) 0x7120).readV 1 = 0x10#8 ∧
    (ran (preset 0x200#16 [(1, 0xF0)]) 0x7120).readV 15 = 0x00#8 := by decide

theorem test_ldI : (ran { State.reset with I := 0xFFF#16 } 0xA000).I = 0x0000#16 ∧
    (ran (preset 0x202#16 []) 0xA123).I = 0x0123#16 := by decide

theorem test_ldReg : (ran (preset 0x200#16 [(1, 0x80)]) 0x8F10).readV 15 = 0x80#8 := by decide

theorem test_orReg : (ran (preset 0x200#16 [(1, 0xF0), (2, 0x0F), (15, 1)]) 0x8121).readV 1 = 0xFF#8 ∧
    (ran (preset 0x200#16 [(1, 0xF0), (2, 0x0F), (15, 1)]) 0x8121).readV 15 = 0x01#8 := by decide

theorem test_andReg : (ran (preset 0x200#16 [(1, 0xF0), (2, 0x3C)]) 0x8122).readV 1 = 0x30#8 := by decide

theorem test_xorReg : (ran (preset 0x200#16 [(1, 0xFF), (2, 0x0F)]) 0x8123).readV 1 = 0xF0#8 := by decide

theorem test_addReg : (ran (preset 0x200#16 [(10, 0xFF), (11, 0x01)]) 0x8AB4).readV 10 = 0x00#8 ∧
    (ran (preset 0x200#16 [(10, 0xFF), (11, 0x01)]) 0x8AB4).readV 15 = 0x01#8 := by decide

theorem test_addReg_vf : (ran (preset 0x200#16 [(15, 0x05), (2, 0xFF)]) 0x8F24).readV 15 = 0x01#8 ∧
    (ran (preset 0x200#16 [(1, 0x01), (15, 0xFF)]) 0x81F4).readV 1 = 0x00#8 := by decide

theorem test_subReg : (ran (preset 0x200#16 [(1, 0x10), (2, 0x20)]) 0x8125).readV 1 = 0xF0#8 ∧
    (ran (preset 0x200#16 [(1, 0x10), (2, 0x10), (15, 1)]) 0x8125).readV 15 = 0x00#8 := by decide

theorem test_subReg_vf : (ran (preset 0x200#16 [(15, 0x05), (2, 0x03)]) 0x8F25).readV 15 = 0xFE#8 ∧
    (ran (preset 0x200#16 [(1, 0x05), (15, 0x03)]) 0x81F5).readV 1 = 0x04#8 := by decide

theorem test_shr : (ran (preset 0x200#16 [(1, 0x81)]) 0x8106).readV 1 = 0x40#8 ∧
    (ran (preset 0x200#16 [(1, 0x81)]) 0x8106).readV 15 = 0x01#8 := by decide

theorem test_shr_vf : (ran (preset 0x200#16 [(15, 0x03)]) 0x8F06).readV 15 = 0x00#8 := by decide

theorem test_subnReg : (ran (preset 0x200#16 [(1, 0x10), (2, 0x30)]) 0x8127).readV 1 = 0x20#8 ∧
    (ran (preset 0x200#16 [(1, 0x10), (2, 0x30)]) 0x8127).readV 15 = 0x01#8 := by decide

theorem test_subnReg_vf : (ran (preset 0x200#16 [(15, 0x03), (2, 0x05)]) 0x8F27).readV 15 = 0x04#8 ∧
    (ran (preset 0x200#16 [(1, 0x03), (15, 0x05)]) 0x81F7).readV 1 = 0xFE#8 := by decide

theorem test_shl : (ran (preset 0x200#16 [(1, 0x81)]) 0x810E).readV 1 = 0x02#8 ∧
    (ran (preset 0x200#16 [(1, 0x81)]) 0x810E).readV 15 = 0x01#8 := by decide

theorem test_shl_vf : (ran (preset 0x200#16 [(15, 0xC1)]) 0x8F0E).readV 15 = 0x02#8 := by decide

theorem test_jpV0 : (ran (preset 0x200#16 [(0, 0xFF)]) 0xBFFF).pc = 0x10FE#16 ∧
    (ran (preset 0x200#16 [(0, 0x10), (5, 0x99)]) 0xB5AA).pc = 0x5BA#16 := by decide

theorem test_unmatched : (ran (preset 0x200#16 [(1, 7)]) 0x8128).pc = 0x202#16 ∧
    (ran (preset 0x200#16 [(1, 7)]) 0x8128).readV 1 = 7#8 := by decide

/-- The order LATCHED, the other column of section 2.5. -/
theorem test_latched_order :
    (subWrites .latched 15 2 (preset 0x200#16 [(15, 0x05), (2, 0x03)])).readV 15 = 0x01#8 ∧
    (shlWrites .latched 15 (preset 0x200#16 [(15, 0xC1)])).readV 15 = 0x01#8 := by decide

/-! ## Memory, fetch, counters, boot -/

/-- The first and last byte of glyph 0 and of glyph F (20_memory.md R59), and the reserved region. -/
theorem test_glyphs : State.reset.mem.byteAt 0 = 0xF0#8 ∧ State.reset.mem.byteAt 0x04B = 0xF0#8 ∧
    State.reset.mem.byteAt 0x04F = 0x80#8 ∧ State.reset.mem.byteAt 0x050 = 0x00#8 := by decide

/-- An odd pc in the glyph table: word 9090 (section 2.1). -/
theorem test_fetch_odd : fetch (preset 0x001#16 []) = .ok 0x9090#16 := by decide

theorem test_fetch_bounds : fetch (preset 0xFFF#16 []) = .error (.execMemBounds 0x1000) ∧
    fetch (preset 0x10FE#16 []) = .error (.execMemBounds 0x10FE) := by decide

/-- The source's bulk-write example S7, and section 2.6. -/
theorem test_bulk_write : memWriteBulk [1, 2, 3, 4] 0x200 [] =
      .ok [(0x200, 1#8), (0x201, 2#8), (0x202, 3#8), (0x203, 4#8)] ∧
    memWriteBulk [1, 2] 0xFFF [] = .error (.resWriteBeyondCapacity 0xFFF 2) ∧
    memWriteBulk [] 0x1000 [] = .ok [] := by decide

theorem test_put_keeps_canonical_form : Memory.put [(0x200, 1#8)] 0x200 0x00#8 = [] ∧
    Memory.put [(0x202, 1#8)] 0x200 0x05#8 = [(0x200, 5#8), (0x202, 1#8)] := by decide

/-- Section 2.7. -/
theorem test_rates : cyclesPerTick 1000 60 = 17 ∧ cyclesPerTick 1000 100 = 10 ∧ cyclesPerTick 1000 300 = 4 ∧
    cyclesPerTick 500 60 = 9 ∧ cyclesPerTick 60 1000 = 1 := by decide

theorem test_dec : dec 0x05#8 = 0x04#8 ∧ dec 0x00#8 = 0x00#8 ∧ dec 0xFF#8 = 0xFE#8 := by decide

/-- A due tick precedes the instruction, and cycle_counter restarts (cadence table of section 2.7). -/
theorem test_tick : (ran { State.reset with cycleCounter := 17, delay := 5, sound := 0 } 0x0000).delay = 4#8 ∧
    (ran { State.reset with cycleCounter := 17, delay := 5, sound := 0 } 0x0000).cycleCounter = 1 ∧
    (ran { State.reset with cycleCounter := 16, delay := 5, sound := 0 } 0x0000).delay = 5#8 := by decide

/-- Program P1's image, booted with the default rates. -/
theorem test_boot : (boot 1000 60 (some [0x6A, 0x0F, 0x6B, 0x10, 0x8A, 0xB4])).mem.byteAt 0x205 = 0xB4#8 ∧
    (boot 1000 60 (some [0x6A, 0x0F, 0x6B, 0x10, 0x8A, 0xB4])).pc = 0x200#16 ∧
    (boot 1000 0 none).fault = some (.configInvalid 1000 0) := by decide

/-- Booting an empty image at the default rates gives the reset state (70_reset_and_hazards.md R250, R251). -/
theorem test_boot_is_reset : boot 1000 60 (some []) = State.reset := by
  unfold boot bootMemory
  rw [constructMemory_eq]
  rfl

theorem test_fault_codes : FaultRecord.code (.execStackUnderflow 0#16) = 1 ∧ FaultRecord.code (.execMemBounds 0) = 3 ∧
    FaultRecord.code (.configInvalid 0 0) = 32 ∧ FaultRecord.isResource (.resImageTooLarge 0) = true := by decide

/-- The spellings the source itself attests (30_encoding.md R89), and an unmatched word's. -/
theorem test_listing : listing (.ldByte 10 0x0F#8) = "LD VA, 0x0F".toList ∧
    listing (.call 0x300#12) = "CALL 0x300".toList ∧ listing (.addReg 10 11) = "ADD VA, VB".toList ∧
    listing (.unmatched 0xF000#16) = ".word 0xF000".toList := by decide

/-! ## Witnesses: a concrete state and operands meeting each statement's hypotheses together -/

/-- A state with a given number of entries on the stack. -/
def withSp (n : Fin 17) : State := { State.reset with sp := n }

/-- A state at a given pc. -/
def atPc (pc : Addr) : State := { State.reset with pc := pc }

theorem witness_CallPushesTheFollowingAddress : (withSp 15).sp.val < 16 ∧ (withSp 0).sp.val < 16 := by decide
theorem witness_CallOnAFullStackFaults : (withSp 16).sp.val = 16 := rfl
theorem witness_RetPopsIntoThePc : 0 < (withSp 1).sp.val ∧ 0 < (withSp 16).sp.val := by decide
theorem witness_RetOnAnEmptyStackFaults : (withSp 0).sp.val = 0 := rfl
theorem witness_CallThenRetResumesAfterTheCall : (withSp 15).sp.val < 16 := by decide
theorem witness_CallStackActsAsABoundedList : (withSp 16).halted = false ∧ (liveStack (withSp 16)).length = 16 ∧
    liveStack (withSp 0) = [] := by decide
theorem witness_SubRegFlagThenDifference : 1 =
    (if ((preset 0x200#16 [(1, 2), (2, 1)]).readV 1).toNat > ((preset 0x200#16 [(1, 2), (2, 1)]).readV 2).toNat
      then 1 else 0) := by decide
theorem witness_ShrFlagThenLogicalShift : 1 = ((preset 0x200#16 [(15, 3)]).readV 15).toNat % 2 := by decide
theorem witness_SubnRegFlagThenDifference : 0 =
    (if ((preset 0x200#16 [(1, 2), (15, 1)]).readV 15).toNat > ((preset 0x200#16 [(1, 2), (15, 1)]).readV 1).toNat
      then 1 else 0) := by decide
theorem witness_ShlFlagThenDouble : 1 = ((preset 0x200#16 [(15, 0x80)]).readV 15).toNat / 128 := by decide
theorem witness_ListedAndLatchedOrdersAgreeAwayFromVf : (14 : RegIdx) ≠ flagReg ∧ (0 : RegIdx) ≠ flagReg := by decide
theorem witness_LatchedOrderUsesOldOperands : 5 = ((preset 0x200#16 [(15, 5), (2, 3)]).readV 15).toNat ∧
    3 = ((preset 0x200#16 [(15, 5), (2, 3)]).readV 2).toNat ∧ (2 : RegIdx) ≠ flagReg := by decide
theorem witness_UnmatchedSpaceIsTheListedOne : 8 = (0x8126#16).toNat / 4096 ∧ 2 = (0x8126#16).toNat / 16 % 16 ∧
    6 = (0x8126#16).toNat % 16 := by decide
theorem witness_DecoderAgreesWithTheOpcodeTable : (⟨21, 0xF000#16, 0xB000#16⟩ : OpcodeRow) ∈ opcodeTableWith false ∧
    (⟨16, 0xF00F#16, 0x8006#16⟩ : OpcodeRow) ∈ opcodeTableWith true := by decide
theorem witness_OpcodeRowsAreDisjoint : (⟨16, 0xF0FF#16, 0x8006#16⟩ : OpcodeRow) ∈ opcodeTableWith false ∧
    (⟨16, 0xF0FF#16, 0x8006#16⟩ : OpcodeRow).matchesWord 0x8F06#16 := by decide
theorem witness_DecodeOfEncodeIsTheInstruction : (Instr.unmatched 0x0000#16).WellFormed ∧
    (Instr.shr 15).WellFormed := by decide
theorem witness_FetchIsBigEndianAtAnyAddress : (atPc 0xFFE#16).pc.toNat ≤ 0xFFE ∧ (atPc 0x201#16).pc.toNat ≤ 0xFFE := by
  decide
theorem witness_FetchBeyondMemoryFaults : (atPc 0xFFF#16).halted = false ∧ (atPc 0xFFF#16).pc.toNat = 0xFFF ∧
    0x1000 ≤ (atPc 0x1000#16).pc.toNat ∧ 0x1000 ≤ (atPc 0xFFFF#16).pc.toNat := by decide
theorem witness_StepRunsTheDecodedInstruction : (atPc 0xFFE#16).halted = false ∧ (atPc 0xFFE#16).pc.toNat ≤ 0xFFE ∧
    decodeBytes [(atPc 0xFFE#16).mem.byteAt 0xFFE, (atPc 0xFFE#16).mem.byteAt 0xFFF] = .ok (.unmatched 0x0000#16, []) :=
  ⟨rfl, by decide, rfl⟩
theorem witness_TickDecrementsBothCountersWhenDue :
    ({ State.reset with cycleCounter := 17 } : State).cycleCounter = State.reset.cpt ∧
    State.reset.cycleCounter ≠ State.reset.cpt := by decide
theorem witness_HaltedBlockHasNoStep : (ran State.reset 0x00EE).halted = true := by decide
theorem witness_LiveBlockAlwaysSteps : State.reset.halted = false := rfl
theorem witness_FaultsArePreciseAndOnlyThese :
    (∃ t, step (State.reset.withFetchWord 16 0x00EE) = .next t ∧ t.halted = true) ∧
    (∃ t, step ((withSp 16).withFetchWord 16 0x2300) = .next t ∧ t.halted = true) ∧
    (∃ t, step (atPc 0xFFF#16) = .next t ∧ t.halted = true) := ⟨⟨_, rfl, rfl⟩, ⟨_, rfl, rfl⟩, ⟨_, rfl, rfl⟩⟩
theorem witness_PlacedWordIsFetched : (atPc 0xFFE#16).mem.wf ∧ (atPc 0xFFE#16).pc.toNat ≤ 0xFFE := by decide
theorem witness_InstructionsWriteOnlyTheirState : (∃ t, exec .ret (withSp 1) = .next t) ∧
    (∃ t, exec (.shl 15) State.reset = .next t) ∧ (Instr.jpV0 0 ≠ .cls ∧ Instr.jpV0 0 ≠ .ret) :=
  ⟨⟨_, rfl⟩, ⟨_, rfl⟩, by decide⟩
theorem witness_PcOutcomeFollowsTheRow :
    (∃ t, exec .ret (withSp 1) = .next t ∧ t.halted = false ∧ pcClass .ret = .jumps) ∧
    (∃ t, exec (.seReg 1 1) State.reset = .next t ∧ t.halted = false ∧ pcClass (.seReg 1 1) = .skipsOrAdvances) ∧
    (∃ t, exec .cls State.reset = .next t ∧ t.halted = false ∧ pcClass .cls = .advances) :=
  ⟨⟨_, rfl, rfl, rfl⟩, ⟨_, rfl, rfl, rfl⟩, ⟨_, rfl, rfl, rfl⟩⟩
theorem witness_EvenTargetsKeepThePcEven : EvenAddresses (withSp 1) ∧ evenTarget (withSp 1) (.call 0xFFE#12) ∧
    ∃ t, exec (.call 0xFFE#12) (withSp 1) = .next t :=
  ⟨⟨by decide, by decide⟩, rfl, ⟨_, rfl⟩⟩
theorem witness_InstructionsReadOnlyRegistersPcAndStack :
    AgreeOnReadState (withSp 1) { withSp 1 with
      I := 0x123#16, mem := [(0x300, 1#8)], delay := 9, cycleCounter := 3, halted := true, fault := some .resImageMissing } :=
  ⟨fun _ => rfl, rfl, rfl, fun _ _ => rfl⟩
theorem witness_CountersAreInvisibleToTheEngine : (∃ t, exec .cls State.reset = .next t) ∧
    (∃ t, step { State.reset with cycleCounter := 17 } = .next t) ∧ (∃ t, step State.reset = .next t) ∧
    State.reset.cycleCounter ≠ State.reset.cpt := ⟨⟨_, rfl⟩, ⟨_, rfl⟩, ⟨_, rfl⟩, by decide⟩
theorem witness_CyclesPerTickIsTheExactCeiling : 0 < 1 ∧ cyclesPerTick 1 1 = 1 := by decide
theorem witness_TicksFollowTheInstructionCount : State.reset.cycleCounter = 0 ∧ 1 ≤ State.reset.cpt ∧
    ∃ t, SafeRun 1 State.reset t := ⟨rfl, by decide, ⟨_, rfl, rfl⟩⟩

/-- The same hypotheses across a tick: with cpt = 1 the second iteration starts with one. -/
theorem witness_TicksFollowTheInstructionCount_tick :
    ∃ t, SafeRun 2 { State.reset with cpt := 1, delay := 7 } t ∧ t.delay = 6#8 := ⟨_, ⟨rfl, rfl⟩, rfl⟩
theorem witness_BulkWriteWritesExactlyItsBytes : Memory.wf [] ∧ 0xFFF + [(1 : Byte)].length ≤ 4096 ∧
    4096 < 0xFFF + [(1 : Byte), 2].length := by decide
theorem witness_CanonicalMemoriesWithEqualBytesAreEqual : Memory.wf [(0x200, 1#8)] ∧
    ∀ a : Nat, Memory.byteAt [(0x200, 1#8)] a = Memory.byteAt (Memory.put [] 0x200 1#8) a :=
  ⟨by decide, fun _ => rfl⟩
theorem witness_BootLoadsTheImage : 0 < 1000 ∧ 0 < 60 ∧ (List.replicate 3584 (0 : Byte)).length ≤ 3584 :=
  ⟨by decide, by decide, Nat.le_of_eq List.length_replicate⟩
theorem witness_BootRefusesBadConfigurationAndImage : (1000 = 0 ∨ 0 = 0) ∧ 0 < 1 ∧
    3584 < (List.replicate 3585 (0 : Byte)).length ∧ (boot 1 1 none).halted = true := by
  refine ⟨by decide, by decide, ?_, by decide⟩
  rw [List.length_replicate]
  decide

/-- The reset state meets the invariant's parts and has a step. -/
theorem witness_StepKeepsTheInvariant : Inv State.reset ∧ ∃ t, step State.reset = .next t :=
  ⟨⟨reset_mem_wf, by decide, by decide, rfl, by decide, by decide, by decide⟩, ⟨_, rfl⟩⟩
theorem witness_PcIncrementsNeverWrap : (atPc 0xFFE#16).halted = false ∧
    (∃ t, step (atPc 0xFFE#16) = .next t ∧ t.halted = false) ∧ fetch (atPc 0xFFE#16) = .ok 0x0000#16 ∧
    pcClass (decodeWord 0x0000#16) ≠ .jumps := ⟨rfl, ⟨_, rfl, rfl⟩, by decide, by decide⟩
theorem witness_ZeroedMemoryRunsToItsEndAndFaults : (atPc 0xFFE#16).halted = false ∧
    (atPc 0xFFE#16).pc.toNat + 2 * 1 = 0x1000 ∧
    ∀ a : Nat, 0xFFE ≤ a → a ≤ 0xFFF → (atPc 0xFFE#16).mem.byteAt a = 0 := by
  refine ⟨rfl, by decide, fun a h1 h2 => ?_⟩
  obtain rfl | rfl : a = 0xFFE ∨ a = 0xFFF := by omega
  all_goals decide

end Sys2Proof.Tests
end

section
/-! The engine's step (40_engine.md): unmatched words (R115), the halted block (R116), and that a live block always has a
next state (R110). -/

namespace Sys2Proof.Machine

open Sys2Proof.Claims

/-! ## Unmatched words -/

/-- The meaning of a word that matches no row. -/
theorem exec_unmatched (w : Word) (s : State) : exec (.unmatched w) s = .next (advance s) := rfl

/-- An advance changes the pc only. -/
theorem onlyPc_advance (s : State) : OnlyPc s (advance s) := ⟨rfl, fun _ => rfl, fun _ => rfl⟩

/-- Settles O22: an unmatched word is an advance. -/
theorem unmatchedWordsAdvanceOnly : Obligations.UnmatchedWordsAdvanceOnly :=
  ⟨by decide, fun s w => ⟨advance s, exec_unmatched w s, advance_pc s, onlyPc_advance s⟩⟩

/-! ## The halted block -/

/-- A run of any machine whose first step faults answers that fault. -/
theorem coreRun_fault (M : Host.Core) (n : Nat) {s : M.State} {f : M.Fault} (h : M.step s = .fault f) :
    M.run (n + 1) s = .fault f := by
  simp [Host.Core.run, h]

/-- Settles O34: the first step of a run from a halted block already answers the halted fault. -/
theorem haltedBlockHasNoStep : Obligations.HaltedBlockHasNoStep := by
  intro s hs
  have hstep : step s = .fault (.halted s.fault) := step_of_halted hs
  exact ⟨hstep, fun n => coreRun_fault core n hstep⟩

/-! ## The live block -/

/-- The engine step answers a next state: a faulting fetch raises its fault in one, and every meaning answers one. -/
theorem engineStep_answers_next (s : State) : ∃ t, engineStep s = .next t := by
  unfold engineStep
  cases fetch s with
  | error r => exact ⟨raiseFault r s, rfl⟩
  | ok w => exact exec_answers_next (decodeWord w) s

/-- Settles O35: the engine step after the due tick answers a next state, and the end of the iteration keeps it one. -/
theorem liveBlockAlwaysSteps : Obligations.LiveBlockAlwaysSteps := by
  intro s hs
  obtain ⟨t, ht⟩ := engineStep_answers_next (tickIfDue s)
  exact ⟨endIteration t, by rw [step_of_live hs, ht]⟩

end Sys2Proof.Machine
end

section
/-! The clear and the two jumps (41_system_control.md R130, R132, R134): what each meaning answers, the value of its
target, and its frame. -/

namespace Sys2Proof.Machine

open Sys2Proof.Claims

/-! ## The clear -/

/-- The meaning of CLS. -/
theorem exec_cls (s : State) : exec .cls s = .next (advance (videoClear s)) := rfl

/-- Every cell of the cleared buffer is unlit. -/
theorem clearVideo_cell (c : Fin 64) (r : Fin 32) : (clearVideo[c.val])[r.val] = false := by
  rw [Vector.getElem_replicate, Vector.getElem_replicate]

/-- Settles O1: CLS is a clear of the buffer and an advance. -/
theorem clsClearsTheVideoBuffer : Obligations.ClsClearsTheVideoBuffer :=
  fun s => ⟨advance (videoClear s), exec_cls s, clearVideo_cell, advance_pc (videoClear s), rfl,
    fun _ => rfl, fun _ => rfl⟩

/-! ## The jumps -/

/-- The meaning of JP addr. -/
theorem exec_jp (nnn : Addr12) (s : State) : exec (.jp nnn) s = .next (jump (addrOperand nnn) s) := rfl

/-- The meaning of JP V0, addr. -/
theorem exec_jpV0 (nnn : Addr12) (s : State) : exec (.jpV0 nnn) s = .next (jump (offsetTarget nnn s) s) := rfl

/-- A jump changes the pc only. -/
theorem onlyPc_jump (a : Addr) (s : State) : OnlyPc s (jump a s) := ⟨rfl, fun _ => rfl, fun _ => rfl⟩

/-- The address operand keeps its value under the extension to 16 bits (R82). -/
@[simp] theorem addrOperand_toNat (nnn : Addr12) : (addrOperand nnn).toNat = nnn.toNat :=
  BitVec.toNat_setWidth_of_le (by decide)

/-- The target of JP V0, addr is the plain sum: at most 0xFF + 0xFFF, it never reaches 2^16 (R134). -/
@[simp] theorem offsetTarget_toNat (nnn : Addr12) (s : State) :
    (offsetTarget nnn s).toNat = (s.readV 0).toNat + nnn.toNat := by
  have hV0 : (s.readV 0).toNat < 2 ^ 8 := (s.readV 0).isLt
  have hnnn : nnn.toNat < 2 ^ 12 := nnn.isLt
  have hext : ((s.readV 0).setWidth 16).toNat = (s.readV 0).toNat := BitVec.toNat_setWidth_of_le (by decide)
  rw [offsetTarget, BitVec.toNat_add, hext, addrOperand_toNat]
  omega

/-- Settles O2: JP addr is a jump to its extended operand. -/
theorem jpGoesToItsAddress : Obligations.JpGoesToItsAddress :=
  fun s nnn => ⟨jump (addrOperand nnn) s, exec_jp nnn s, addrOperand_toNat nnn, onlyPc_jump (addrOperand nnn) s⟩

/-- Settles O3: JP V0, addr is a jump to a sum that cannot wrap. -/
theorem jpV0AddsV0WithoutWrapping : Obligations.JpV0AddsV0WithoutWrapping :=
  fun s nnn => ⟨jump (offsetTarget nnn s) s, exec_jpV0 nnn s, offsetTarget_toNat nnn s,
    onlyPc_jump (offsetTarget nnn s) s⟩

end Sys2Proof.Machine
end

section
/-! The conditional skips (42_skips.md R150 to R153): what each meaning answers, and the one fact about `skipIf` that all
four share. -/

namespace Sys2Proof.Machine

open Sys2Proof.Claims

/-! ## What each skip answers -/

/-- The meaning of SE Vx, byte. -/
theorem exec_seByte (x : RegIdx) (kk : Byte) (s : State) :
    exec (.seByte x kk) s = .next (skipIf (decide (s.readV x = kk)) s) := rfl

/-- The meaning of SNE Vx, byte. -/
theorem exec_sneByte (x : RegIdx) (kk : Byte) (s : State) :
    exec (.sneByte x kk) s = .next (skipIf (decide (s.readV x ≠ kk)) s) := rfl

/-- The meaning of SE Vx, Vy. -/
theorem exec_seReg (x y : RegIdx) (s : State) :
    exec (.seReg x y) s = .next (skipIf (decide (s.readV x = s.readV y)) s) := rfl

/-- The meaning of SNE Vx, Vy. -/
theorem exec_sneReg (x y : RegIdx) (s : State) :
    exec (.sneReg x y) s = .next (skipIf (decide (s.readV x ≠ s.readV y)) s) := rfl

/-! ## The conditional skip -/

/-- The pc after a conditional skip. -/
@[simp] theorem skipIf_pc (c : Bool) (s : State) : (skipIf c s).pc = if c then s.pc + 4 else s.pc + 2 := by
  rw [skipIf_eq]

/-- A conditional skip changes the pc only. -/
theorem onlyPc_skipIf (c : Bool) (s : State) : OnlyPc s (skipIf c s) := by
  rw [skipIf_eq]
  exact ⟨rfl, fun _ => rfl, fun _ => rfl⟩

/-- A conditional skip on a test skips when whatever the test decides holds: the model compares bytes, the statement their
unsigned values. -/
theorem skipsWhen_skipIf {p c : Prop} [Decidable p] (hpc : p ↔ c) (s : State) :
    SkipsWhen c s (skipIf (decide p) s) := by
  refine ⟨fun hc => ?_, fun hc => ?_, onlyPc_skipIf (decide p) s⟩
  · simp [hpc.mpr hc]
  · simp [mt hpc.mp hc]

/-- Settles O10: each skip is a `skipIf` on a comparison of bytes, which agrees with that of their unsigned values. -/
theorem skipInstructionsCompareAndSkip : Obligations.SkipInstructionsCompareAndSkip := by
  intro s x y kk
  have hByte : s.readV x = kk ↔ (s.readV x).toNat = kk.toNat := BitVec.toNat_inj.symm
  have hReg : s.readV x = s.readV y ↔ (s.readV x).toNat = (s.readV y).toNat := BitVec.toNat_inj.symm
  exact ⟨⟨_, exec_seByte x kk s, skipsWhen_skipIf hByte s⟩,
    ⟨_, exec_sneByte x kk s, skipsWhen_skipIf (not_congr hByte) s⟩,
    ⟨_, exec_seReg x y s, skipsWhen_skipIf hReg s⟩,
    ⟨_, exec_sneReg x y s, skipsWhen_skipIf (not_congr hReg) s⟩⟩

end Sys2Proof.Machine
end

section
/-! The immediate loads and the immediate add (43_loads.md R160 to R162): what each meaning answers, and the frame that
every instruction writing one register shares. -/

namespace Sys2Proof.Machine

open Sys2Proof.Claims

/-! ## One register written -/

/-- A register write and an advance: the other registers read as before and nothing else differs, VF being a register
like any other. -/
theorem writesOneRegister_advance_writeV (x : RegIdx) (b : Byte) (s : State) :
    WritesOneRegister x b s (advance (s.writeV x b)) := by
  refine ⟨?_, fun r hr => ?_, advance_pc (s.writeV x b), rfl, fun _ => rfl⟩
  · rw [readV_advance, readV_writeV_same]
  · rw [readV_advance, readV_writeV_ne s x r b hr]

/-- The meaning of LD Vx, byte. -/
theorem exec_ldByte (x : RegIdx) (kk : Byte) (s : State) :
    exec (.ldByte x kk) s = .next (advance (s.writeV x kk)) := rfl

/-- The meaning of ADD Vx, byte. -/
theorem exec_addByte (x : RegIdx) (kk : Byte) (s : State) :
    exec (.addByte x kk) s = .next (advance (s.writeV x (s.readV x + kk))) := rfl

/-- Settles O11: LD Vx, byte is a write of the immediate to one register. -/
theorem ldByteLoadsTheImmediate : Obligations.LdByteLoadsTheImmediate :=
  fun s x kk => ⟨advance (s.writeV x kk), exec_ldByte x kk s, writesOneRegister_advance_writeV x kk s⟩

/-- Settles O12: ADD Vx, byte is a write of the sum of two bytes, which wraps at 256, to one register. -/
theorem addByteWrapsWithoutAFlag : Obligations.AddByteWrapsWithoutAFlag := by
  intro s x kk
  have hwrites := writesOneRegister_advance_writeV x (s.readV x + kk) s
  have hx : (advance (s.writeV x (s.readV x + kk))).readV x = s.readV x + kk := hwrites.1
  refine ⟨_, exec_addByte x kk s, ?_, ?_⟩
  · rw [hx, BitVec.toNat_add]
  · rwa [hx]

/-! ## The index register written -/

/-- The meaning of LD I, addr. -/
theorem exec_ldI (nnn : Addr12) (s : State) :
    exec (.ldI nnn) s = .next (advance (s.writeI (addrOperand nnn))) := rfl

/-- Settles O13: LD I, addr is a write of its extended operand to the index register and an advance. -/
theorem ldILoadsTheIndexRegister : Obligations.LdILoadsTheIndexRegister :=
  fun s nnn => ⟨advance (s.writeI (addrOperand nnn)), exec_ldI nnn s, addrOperand_toNat nnn,
    advance_pc (s.writeI (addrOperand nnn)), rfl, fun _ => rfl, fun _ => rfl⟩

end Sys2Proof.Machine
end

section
/-! The register-to-register instructions that do not depend on ALU_ORDER (44_alu.md R171 to R175): what each meaning
answers, the value of the carry flag, and the frame that every instruction writing a flag and a result shares. -/

namespace Sys2Proof.Machine

open Sys2Proof.Claims

/-! ## Moves and logic -/

/-- The meaning of LD Vx, Vy. -/
theorem exec_ldReg (x y : RegIdx) (s : State) :
    exec (.ldReg x y) s = .next (advance (s.writeV x (s.readV y))) := rfl

/-- The meaning of OR Vx, Vy. -/
theorem exec_orReg (x y : RegIdx) (s : State) :
    exec (.orReg x y) s = .next (advance (s.writeV x (s.readV x ||| s.readV y))) := rfl

/-- The meaning of AND Vx, Vy. -/
theorem exec_andReg (x y : RegIdx) (s : State) :
    exec (.andReg x y) s = .next (advance (s.writeV x (s.readV x &&& s.readV y))) := rfl

/-- The meaning of XOR Vx, Vy. -/
theorem exec_xorReg (x y : RegIdx) (s : State) :
    exec (.xorReg x y) s = .next (advance (s.writeV x (s.readV x ^^^ s.readV y))) := rfl

/-- Settles O14: each of the four is a write of a function of the old registers to one register. -/
theorem moveAndLogicWriteOnlyTheirDestination : Obligations.MoveAndLogicWriteOnlyTheirDestination :=
  fun s x y =>
    ⟨⟨_, exec_ldReg x y s, writesOneRegister_advance_writeV x (s.readV y) s⟩,
      ⟨_, exec_orReg x y s, writesOneRegister_advance_writeV x (s.readV x ||| s.readV y) s⟩,
      ⟨_, exec_andReg x y s, writesOneRegister_advance_writeV x (s.readV x &&& s.readV y) s⟩,
      ⟨_, exec_xorReg x y s, writesOneRegister_advance_writeV x (s.readV x ^^^ s.readV y) s⟩⟩

/-! ## A flag and a result written -/

/-- The value of a flag byte. -/
@[simp] theorem flagByte_toNat (c : Bool) : (flagByte c).toNat = if c then 1 else 0 := by
  cases c <;> rfl

/-- The value of the carry flag. -/
@[simp] theorem carryFlag_toNat (a b : Byte) : (carryFlag a b).toNat = if a.toNat + b.toNat > 255 then 1 else 0 := by
  simp [carryFlag]

/-- The pc after a flag, a result and an advance, in either order. -/
theorem pc_advance_writeFlagAndResult (o : AluOrder) (x : RegIdx) (f r : State → Byte) (s : State) :
    (advance (writeFlagAndResult o x f r s)).pc = s.pc + 2 := by
  rw [advance_pc, writeFlagAndResult_frame]

/-- A flag, a result and an advance, in either order, change registers and the pc only. -/
theorem onlyRegistersAndPc_advance_writeFlagAndResult (o : AluOrder) (x : RegIdx) (f r : State → Byte) (s : State) :
    OnlyRegistersAndPc s (advance (writeFlagAndResult o x f r s)) := by
  rw [writeFlagAndResult_frame]
  exact ⟨rfl, fun _ => rfl⟩

/-! ## The add with carry -/

/-- The meaning of ADD Vx, Vy: the order LATCHED whatever ALU_ORDER is. -/
theorem exec_addReg (x y : RegIdx) (s : State) : exec (.addReg x y) s =
    .next (advance (writeFlagAndResult .latched x (fun s => carryFlag (s.readV x) (s.readV y))
      (fun s => s.readV x + s.readV y) s)) := rfl

/-- Settles O15: the carry is written last, so VF holds it even when x = 15, and the sum of two bytes wraps at 256. -/
theorem addRegSetsTheCarryLast : Obligations.AddRegSetsTheCarryLast := by
  intro s x y
  refine ⟨_, exec_addReg x y s, fun hx => ?sum, ?carry, fun r hrx hrf => ?others,
    pc_advance_writeFlagAndResult _ x _ _ s, onlyRegistersAndPc_advance_writeFlagAndResult _ x _ _ s⟩
  case sum => rw [readV_advance, readV_writeLatched, if_neg hx, if_pos rfl, BitVec.toNat_add]
  case carry => rw [readV_advance, readV_writeLatched, if_pos rfl, carryFlag_toNat]
  case others => rw [readV_advance, readV_writeLatched, if_neg hrf, if_neg hrx]

end Sys2Proof.Machine
end

section
/-! The delay and sound counters (60_exceptions.md R209, R210, R212): the decrement and its floor, that every meaning
commutes with setting the counters, and that a step leaves them as its tick does. -/

namespace Sys2Proof.Machine

/-! ## The decrement -/

/-- The decrement is the truncated subtraction of natural numbers (R209). -/
theorem dec_toNat (c : Byte) : (dec c).toNat = c.toNat - 1 := by
  unfold dec
  split
  · next hc => rw [hc]; rfl
  · next hc =>
    have hle : (1 : Byte) ≤ c := by bv_omega
    exact BitVec.toNat_sub_of_le hle

/-- Settles O43: the decrement is the truncated subtraction of natural numbers, which never grows. -/
theorem decSaturatesAtZero : Obligations.DecSaturatesAtZero :=
  ⟨rfl, fun c => ⟨dec_toNat c, (dec_toNat c).trans_le (Nat.sub_le c.toNat 1)⟩⟩

/-! ## Setting the counters commutes with every operation -/

/-- The state with both counters set. -/
def setCounters (d e : Byte) (s : State) : State := { s with delay := d, sound := e }

/-- Setting the counters to what they hold changes nothing. -/
theorem setCounters_self (s : State) : setCounters s.delay s.sound s = s := rfl

/-- A conditional skip commutes with setting the counters. -/
theorem skipIf_setCounters (c : Bool) (d e : Byte) (s : State) :
    skipIf c (setCounters d e s) = setCounters d e (skipIf c s) := by
  cases c <;> rfl

/-- A push commutes with setting the counters. -/
theorem push_setCounters (v : Addr) (d e : Byte) (s : State) :
    push v (setCounters d e s) = (push v s).map (setCounters d e) := by
  unfold push
  rw [apply_dite (Option.map (setCounters d e))]
  rfl

/-- A pop commutes with setting the counters, and its value does not depend on them. -/
theorem pop_setCounters (d e : Byte) (s : State) :
    pop (setCounters d e s) = (pop s).map (Prod.map id (setCounters d e)) := by
  unfold pop
  rw [apply_dite (Option.map (Prod.map id (setCounters d e)))]
  rfl

/-- RET commutes with setting the counters, whether it pops or faults. -/
theorem execRet_setCounters {s t : State} (d e : Byte) (h : execRet s = .next t) :
    execRet (setCounters d e s) = .next (setCounters d e t) := by
  unfold execRet at h ⊢
  rw [pop_setCounters]
  cases hpop : pop s with
  | none | some p =>
    rw [hpop] at h
    cases h
    rfl

/-- CALL commutes with setting the counters, whether it pushes or faults. -/
theorem execCall_setCounters {nnn : Addr12} {s t : State} (d e : Byte) (h : execCall nnn s = .next t) :
    execCall nnn (setCounters d e s) = .next (setCounters d e t) := by
  have haddr : returnAddress (setCounters d e s) = returnAddress s := rfl
  unfold execCall at h ⊢
  rw [haddr, push_setCounters]
  cases hpush : push (returnAddress s) s with
  | none | some u =>
    rw [hpush] at h
    cases h
    rfl

/-- Every meaning commutes with setting the counters: no instruction reads them, and what is set beforehand is still
there afterwards (R210). -/
theorem exec_setCounters {i : Instr} {s t : State} (d e : Byte) (h : exec i s = .next t) :
    exec i (setCounters d e s) = .next (setCounters d e t) := by
  cases i
  case ret => exact execRet_setCounters d e h
  case call => exact execCall_setCounters d e h
  case seByte | sneByte | seReg | sneReg =>
    cases h
    exact congrArg Host.Outcome.next (skipIf_setCounters _ d e s)
  all_goals
    cases h
    rfl

/-- No meaning writes the counters: by `exec_setCounters` at the values they hold, the state answered still holds these. -/
theorem exec_counters {i : Instr} {s t : State} (h : exec i s = .next t) : t.delay = s.delay ∧ t.sound = s.sound := by
  have hset := exec_setCounters s.delay s.sound h
  rw [setCounters_self s] at hset
  have ht : t = setCounters s.delay s.sound t := Host.Outcome.next.inj (h.symm.trans hset)
  rw [ht]
  exact ⟨rfl, rfl⟩

/-! ## The counters after a step -/

/-- The end of an iteration leaves the delay counter. -/
@[simp] theorem endIteration_delay (s : State) : (endIteration s).delay = s.delay := by
  unfold endIteration
  split <;> rfl

/-- The end of an iteration leaves the sound counter. -/
@[simp] theorem endIteration_sound (s : State) : (endIteration s).sound = s.sound := by
  unfold endIteration
  split <;> rfl

/-- A step leaves the counters as the tick at its head does, whether its fetch faults or an instruction runs. -/
theorem step_counters {s t : State} (h : step s = .next t) :
    t.delay = (tickIfDue s).delay ∧ t.sound = (tickIfDue s).sound := by
  obtain ⟨r, -, rfl⟩ | ⟨w, u, -, hexec, rfl⟩ := step_next_cases h
  · exact ⟨rfl, rfl⟩
  · rw [endIteration_delay, endIteration_sound]
    exact exec_counters hexec

/-- Settles O42: every meaning commutes with setting the counters, so it neither reads nor writes them, and a step leaves
them as its tick does. -/
theorem countersAreInvisibleToTheEngine : Obligations.CountersAreInvisibleToTheEngine := by
  refine ⟨fun i s t d e => exec_setCounters d e, fun i s t => exec_counters, fun s t h => ?_⟩
  obtain ⟨hdelay, hsound⟩ := step_counters h
  rw [hdelay, hsound]
  refine ⟨fun hdue => ?due, fun hnot => ?notDue⟩
  case due =>
    rw [tickIfDue_of_eq hdue]
    exact ⟨dec_toNat s.delay, dec_toNat s.sound⟩
  case notDue =>
    rw [tickIfDue_of_ne hnot]
    exact ⟨rfl, rfl⟩

end Sys2Proof.Machine
end

section
/-! The call stack (10_state.md R28, R29; 41_system_control.md R131, R133, R135, R136): CALL and RET below and at its
bounds, and what they do to the list of live entries. -/

namespace Sys2Proof.Machine

open Sys2Proof.Claims

/-! ## What a push and a pop leave -/

/-- The state after a push below the capacity (R135). -/
def pushed (v : Addr) (s : State) (h : s.sp.val < 16) : State :=
  { s with stack := s.stack.set s.sp.val v h, sp := ⟨s.sp.val + 1, Nat.succ_lt_succ h⟩ }

/-- The state after a pop: the popped entry keeps its value (R29, R136). -/
def popped (s : State) : State := { s with sp := ⟨s.sp.val - 1, by omega⟩ }

/-- A push below the capacity is made. -/
theorem push_of_lt (v : Addr) {s : State} (h : s.sp.val < 16) : push v s = some (pushed v s h) := dif_pos h

/-- A pop with an entry held is made. -/
theorem pop_of_pos {s : State} (h : 0 < s.sp.val) : pop s = some (s.stack[s.sp.val - 1], popped s) := dif_pos h

/-! ## What CALL and RET answer -/

/-- CALL below the capacity. -/
theorem exec_call_of_lt (nnn : Addr12) {s : State} (h : s.sp.val < 16) :
    exec (.call nnn) s = .next (jump (addrOperand nnn) (pushed (s.pc + 2) s h)) := by
  simp only [exec, execCall, returnAddress, push_of_lt (s.pc + 2) h]

/-- CALL with sixteen entries held. -/
theorem exec_call_of_full (nnn : Addr12) {s : State} (h : s.sp.val = 16) :
    exec (.call nnn) s = .next (raiseFault (.execStackOverflow s.pc) s) := by
  simp only [exec, execCall, returnAddress, push_eq_none.mpr h]

/-- RET with an entry held. -/
theorem exec_ret_of_pos {s : State} (h : 0 < s.sp.val) :
    exec .ret s = .next (jump s.stack[s.sp.val - 1] (popped s)) := by
  simp only [exec, execRet, pop_of_pos h]

/-- RET with no entry held. -/
theorem exec_ret_of_empty {s : State} (h : s.sp.val = 0) :
    exec .ret s = .next (raiseFault (.execStackUnderflow s.pc) s) := by
  simp only [exec, execRet, pop_eq_none.mpr h]

/-- A fault entry sets the fault status and changes nothing else. -/
theorem faultEntered_raiseFault (r : FaultRecord) (s : State) : FaultEntered r s (raiseFault r s) :=
  ⟨rfl, fun _ => rfl, fun _ => rfl⟩

/-- Settles O4: CALL below the capacity is a push of the following address and a jump. -/
theorem callPushesTheFollowingAddress : Obligations.CallPushesTheFollowingAddress := by
  intro s nnn h
  refine ⟨_, exec_call_of_lt nnn h, rfl, ?top, fun k hk => ?others, addrOperand_toNat nnn, rfl, fun _ => rfl,
    fun _ => rfl⟩
  case top => exact Vector.getElem_set_self h
  case others => exact Vector.getElem_set_ne h k.isLt hk.symm

/-- Settles O5: CALL with sixteen entries held is the fault entry. -/
theorem callOnAFullStackFaults : Obligations.CallOnAFullStackFaults :=
  fun s nnn h => ⟨_, exec_call_of_full nnn h, faultEntered_raiseFault (.execStackOverflow s.pc) s⟩

/-- Settles O6: RET with an entry held is a pop and a jump to the entry popped. -/
theorem retPopsIntoThePc : Obligations.RetPopsIntoThePc :=
  fun _ h => ⟨_, exec_ret_of_pos h, Nat.sub_add_cancel h, rfl, rfl, fun _ => rfl, fun _ => rfl⟩

/-- Settles O7: RET with no entry held is the fault entry. -/
theorem retOnAnEmptyStackFaults : Obligations.RetOnAnEmptyStackFaults :=
  fun s h => ⟨_, exec_ret_of_empty h, faultEntered_raiseFault (.execStackUnderflow s.pc) s⟩

/-! ## The live entries as a list -/

/-- There are as many live entries as `sp` says. -/
@[simp] theorem length_liveStack (s : State) : (liveStack s).length = s.sp.val := by
  have := s.sp.isLt
  simp only [liveStack, List.length_take, Vector.length_toList]
  omega

/-- A push appends its value to the live entries. -/
theorem liveStack_pushed (v : Addr) {s : State} (h : s.sp.val < 16) :
    liveStack (pushed v s h) = liveStack s ++ [v] := by
  have htop : (s.stack.toList.set s.sp.val v)[s.sp.val]? = some v := by simp [h]
  calc liveStack (pushed v s h)
      = (s.stack.toList.set s.sp.val v).take (s.sp.val + 1) := by simp [liveStack, pushed, Vector.toList_set]
    _ = (s.stack.toList.set s.sp.val v).take s.sp.val ++ [v] := by rw [List.take_add_one, htop]; rfl
    _ = liveStack s ++ [v] := by rw [List.take_set_of_le (Nat.le_refl _)]; rfl

/-- A pop takes the last live entry off. -/
theorem liveStack_popped (s : State) : liveStack (popped s) = (liveStack s).dropLast := by
  have := s.sp.isLt
  rw [List.dropLast_eq_take, length_liveStack, liveStack, liveStack, List.take_take]
  simp [popped]

/-- The entry a pop answers is the last live one. -/
theorem getLast?_liveStack {s : State} (h : 0 < s.sp.val) : (liveStack s).getLast? = some s.stack[s.sp.val - 1] := by
  have := s.sp.isLt
  rw [List.getLast?_eq_getElem?, length_liveStack, liveStack, List.getElem?_take_of_lt (by omega)]
  simp

/-- No entry is live exactly when `sp` is 0. -/
theorem liveStack_eq_nil (s : State) : liveStack s = [] ↔ s.sp.val = 0 := by
  rw [← List.length_eq_zero_iff, length_liveStack]

/-- A fault entry leaves the live entries. -/
theorem liveStack_raiseFault (r : FaultRecord) (s : State) : liveStack (raiseFault r s) = liveStack s := rfl

/-- A jump leaves the live entries. -/
theorem liveStack_jump (a : Addr) (s : State) : liveStack (jump a s) = liveStack s := rfl

/-- Settles O8: the RET pops the entry the CALL pushed, which is the last live one. -/
theorem callThenRetResumesAfterTheCall : Obligations.CallThenRetResumesAfterTheCall := by
  intro s nnn h
  have hpos : 0 < (jump (addrOperand nnn) (pushed (s.pc + 2) s h)).sp.val := Nat.succ_pos s.sp.val
  refine ⟨_, _, exec_call_of_lt nnn h, exec_ret_of_pos hpos, ?pc, ?live, rfl⟩
  case pc => exact Vector.getElem_set_self h
  case live => rw [liveStack_jump, liveStack_popped, liveStack_jump, liveStack_pushed, List.dropLast_concat]

/-- CALL on the list of live entries: it appends the following address, or faults on sixteen and leaves them. -/
theorem call_liveStack (nnn : Addr12) (s : State) : ∃ t, exec (.call nnn) s = .next t ∧
    liveStack t = (if (liveStack s).length < 16 then liveStack s ++ [s.pc + 2] else liveStack s) ∧
    (s.halted = false → (t.halted = true ↔ (liveStack s).length = 16)) := by
  rw [length_liveStack]
  by_cases h : s.sp.val < 16
  · refine ⟨_, exec_call_of_lt nnn h, ?_, fun hlive => ?_⟩
    · rw [liveStack_jump, liveStack_pushed, if_pos h]
    · simp [pushed, hlive, h.ne]
  · have hfull : s.sp.val = 16 := by omega
    refine ⟨_, exec_call_of_full nnn hfull, ?_, fun _ => ?_⟩
    · rw [liveStack_raiseFault, if_neg h]
    · simp [hfull]

/-- RET on the list of live entries: it takes the last off and jumps to it, or faults on none. -/
theorem ret_liveStack (s : State) : ∃ t, exec .ret s = .next t ∧ liveStack t = (liveStack s).dropLast ∧
    t.pc = (liveStack s).getLast?.getD s.pc ∧ (s.halted = false → (t.halted = true ↔ liveStack s = [])) := by
  by_cases h : s.sp.val = 0
  · have hnil : liveStack s = [] := (liveStack_eq_nil s).mpr h
    refine ⟨_, exec_ret_of_empty h, ?_, ?_, fun _ => ?_⟩ <;> simp [liveStack_raiseFault, hnil]
  · have hpos : 0 < s.sp.val := Nat.pos_of_ne_zero h
    refine ⟨_, exec_ret_of_pos hpos, ?_, ?_, fun hlive => ?_⟩
    · rw [liveStack_jump, liveStack_popped]
    · rw [getLast?_liveStack hpos, jump_pc, Option.getD_some]
    · simp [popped, hlive, liveStack_eq_nil, h]

/-- Settles O9: CALL and RET act on the list of live entries, which is never longer than `sp` can be. -/
theorem callStackActsAsABoundedList : Obligations.CallStackActsAsABoundedList :=
  fun s => ⟨(length_liveStack s).trans_le (Nat.le_of_lt_succ s.sp.isLt), fun nnn => call_liveStack nnn s,
    ret_liveStack s⟩

end Sys2Proof.Machine
end

section
/-! The instructions whose outcome depends on ALU_ORDER (44_alu.md R170, R176 to R181; D11): the values of their flags,
the order AS_LISTED of this hardware, and the order LATCHED. -/

namespace Sys2Proof.Machine

open Sys2Proof.Claims

/-! ## The flags and the results as numbers -/

/-- The value of the flag of 8xy5 and 8xy7. -/
@[simp] theorem greaterFlag_toNat (a b : Byte) : (greaterFlag a b).toNat = if a.toNat > b.toNat then 1 else 0 := by
  simp [greaterFlag]

/-- The value of the flag of 8x06. -/
@[simp] theorem lowBitFlag_toNat (a : Byte) : (lowBitFlag a).toNat = a.toNat % 2 := by
  rw [lowBitFlag, BitVec.toNat_and]
  exact Nat.and_one_is_mod a.toNat

/-- The value of the flag of 8x0E. -/
@[simp] theorem highBitFlag_toNat (a : Byte) : (highBitFlag a).toNat = a.toNat / 128 := by
  revert a
  decide

/-- The value of the difference of two bytes. -/
theorem byte_sub_toNat (a b : Byte) : (a - b).toNat = (a.toNat + 256 - b.toNat) % 256 := by
  bv_omega

/-- The value of a byte shifted right by one. -/
theorem byte_shr_toNat (a : Byte) : (a >>> 1).toNat = a.toNat / 2 := by
  simp [Nat.shiftRight_eq_div_pow]

/-- The value of a byte shifted left by one. -/
theorem byte_shl_toNat (a : Byte) : (a <<< 1).toNat = a.toNat * 2 % 256 := by
  simp [Nat.shiftLeft_eq]

/-! ## The order AS_LISTED -/

/-- The meaning of SUB Vx, Vy. -/
theorem exec_subReg (x y : RegIdx) (s : State) :
    exec (.subReg x y) s = .next (advance (subWrites .asListed x y s)) := rfl

/-- The meaning of SHR Vx. -/
theorem exec_shr (x : RegIdx) (s : State) : exec (.shr x) s = .next (advance (shrWrites .asListed x s)) := rfl

/-- The meaning of SUBN Vx, Vy. -/
theorem exec_subnReg (x y : RegIdx) (s : State) :
    exec (.subnReg x y) s = .next (advance (subnWrites .asListed x y s)) := rfl

/-- The meaning of SHL Vx. -/
theorem exec_shl (x : RegIdx) (s : State) : exec (.shl x) s = .next (advance (shlWrites .asListed x s)) := rfl

/-- The value of a register as the second statement reads it, VF holding the flag by then. -/
theorem readV_afterFlag (b : Byte) (r : RegIdx) (s : State) :
    ((s.writeV flagReg b).readV r).toNat = afterFlag b.toNat r s := by
  rw [readV_writeV, afterFlag, apply_ite BitVec.toNat]

/-- A flag and a result in the order AS_LISTED, and an advance: the result is the one read after the flag write. -/
theorem flagThenResult_writeListed (x : RegIdx) (flag result : State → Byte) (s : State) {f res : Nat}
    (hf : (flag s).toNat = f) (hres : (result (s.writeV flagReg (flag s))).toNat = res) :
    FlagThenResult x f res s (advance (writeFlagAndResult .asListed x flag result s)) := by
  refine ⟨?result, fun hx => ?flag, fun r hrx hrf => ?others, pc_advance_writeFlagAndResult _ x _ _ s,
    onlyRegistersAndPc_advance_writeFlagAndResult _ x _ _ s⟩
  case result => rw [readV_advance, readV_writeListed, if_pos rfl, hres]
  case flag => rw [readV_advance, readV_writeListed, if_neg hx.symm, if_pos rfl, hf]
  case others => rw [readV_advance, readV_writeListed, if_neg hrx, if_neg hrf]

/-- Settles O16: the difference is that of the registers with the flag already in VF. -/
theorem subRegFlagThenDifference : Obligations.SubRegFlagThenDifference := by
  rintro s x y f rfl
  refine ⟨_, exec_subReg x y s, flagThenResult_writeListed x _ _ s (greaterFlag_toNat _ _) ?_⟩
  rw [byte_sub_toNat, readV_afterFlag, readV_afterFlag, greaterFlag_toNat]

/-- Settles O17: the register halved is the one that holds the flag when x = 15. -/
theorem shrFlagThenLogicalShift : Obligations.ShrFlagThenLogicalShift := by
  rintro s x f rfl
  refine ⟨_, exec_shr x s, flagThenResult_writeListed x _ _ s (lowBitFlag_toNat _) ?_⟩
  rw [byte_shr_toNat, readV_afterFlag, lowBitFlag_toNat]

/-- Settles O18: the difference is that of the registers with the flag already in VF. -/
theorem subnRegFlagThenDifference : Obligations.SubnRegFlagThenDifference := by
  rintro s x y f rfl
  refine ⟨_, exec_subnReg x y s, flagThenResult_writeListed x _ _ s (greaterFlag_toNat _ _) ?_⟩
  rw [byte_sub_toNat, readV_afterFlag, readV_afterFlag, greaterFlag_toNat]

/-- Settles O19: the register doubled is the one that holds the flag when x = 15. -/
theorem shlFlagThenDouble : Obligations.ShlFlagThenDouble := by
  rintro s x f rfl
  refine ⟨_, exec_shl x s, flagThenResult_writeListed x _ _ s (highBitFlag_toNat _) ?_⟩
  rw [byte_shl_toNat, readV_afterFlag, highBitFlag_toNat]

/-! ## The order LATCHED -/

/-- Writes of two different registers commute. -/
theorem writeV_comm {p q : RegIdx} (h : p ≠ q) (a b : Byte) (s : State) :
    (s.writeV p a).writeV q b = (s.writeV q b).writeV p a := by
  have hset : (s.V.set p.val a).set q.val b = (s.V.set q.val b).set p.val a :=
    Vector.set_comm a b (fun e => h (Fin.ext e))
  simp only [State.writeV, hset]

/-- The two orders agree when the result goes to another register than VF and does not change with VF. -/
theorem writeFlagAndResult_orders_agree {x : RegIdx} {flag result : State → Byte} {s : State} (hx : x ≠ flagReg)
    (hres : result (s.writeV flagReg (flag s)) = result s) :
    writeFlagAndResult .asListed x flag result s = writeFlagAndResult .latched x flag result s := by
  simp only [writeFlagAndResult, hres]
  exact writeV_comm hx.symm _ _ s

/-- Settles O20: the result of each reads registers other than VF, so the flag write does not change it. -/
theorem listedAndLatchedOrdersAgreeAwayFromVf : Obligations.ListedAndLatchedOrdersAgreeAwayFromVf := by
  intro s x y hx hy
  have read_x (b : Byte) : (s.writeV flagReg b).readV x = s.readV x := readV_writeV_ne s flagReg x b hx
  have read_y (b : Byte) : (s.writeV flagReg b).readV y = s.readV y := readV_writeV_ne s flagReg y b hy
  refine ⟨?sub, ?shr, ?subn, ?shl⟩ <;> refine writeFlagAndResult_orders_agree hx ?_
  case sub | subn => rw [read_x, read_y]
  case shr | shl => rw [read_x]

/-- In the order LATCHED VF ends holding the flag, also when x = 15, and otherwise Vx the result, both of the old
registers (R181). -/
theorem writeLatched_values (x : RegIdx) (flag result : State → Byte) (s : State) {f res : Nat}
    (hf : (flag s).toNat = f) (hres : (result s).toNat = res) :
    ((writeFlagAndResult .latched x flag result s).readV flagReg).toNat = f ∧
      (x ≠ flagReg → ((writeFlagAndResult .latched x flag result s).readV x).toNat = res) := by
  refine ⟨?flag, fun hx => ?result⟩
  case flag => rw [readV_writeLatched, if_pos rfl, hf]
  case result => rw [readV_writeLatched, if_neg hx, if_pos rfl, hres]

/-- Settles O21: the flag and the result of each are functions of the old registers. -/
theorem latchedOrderUsesOldOperands : Obligations.LatchedOrderUsesOldOperands := by
  rintro s x y a b rfl rfl
  exact ⟨writeLatched_values x _ _ s (greaterFlag_toNat _ _) (byte_sub_toNat _ _),
    writeLatched_values x _ _ s (lowBitFlag_toNat _) (byte_shr_toNat _),
    writeLatched_values x _ _ s (greaterFlag_toNat _ _) (byte_sub_toNat _ _),
    writeLatched_values x _ _ s (highBitFlag_toNat _) (byte_shl_toNat _)⟩

end Sys2Proof.Machine
end

section
/-! The decoder and the encoder against the opcode table (30_encoding.md R84 to R87, 40_engine.md R113): a word from its
own fields, the tests of the table's rows in terms of fields, and the row a word decodes by. -/

namespace Sys2Proof

/-! ## A word from its own fields -/

/-- A word with op field `o` in format `nnn`. -/
theorem wordNnn_of_fields {w : Word} {o : BitVec 4} (ho : opField w = o) : wordNnn o (nnnField w) = w := by
  apply BitVec.eq_of_toNat_eq
  rw [wordNnn_toNat, ← ho, opField_toNat, nnnField_toNat]
  omega

/-- A word with op field `o` in format `xkk`. -/
theorem wordXkk_of_fields {w : Word} {o : BitVec 4} (ho : opField w = o) : wordXkk o (xField w) (kkField w) = w := by
  apply BitVec.eq_of_toNat_eq
  rw [wordXkk_toNat, ← ho, opField_toNat, xField_val, kkField_toNat]
  omega

/-- A word with op field `o` and sub-opcode `n` in format `xy`. -/
theorem wordXy_of_fields {w : Word} {o n : BitVec 4} (ho : opField w = o) (hn : nField w = n) :
    wordXy o (xField w) (yField w) n = w := by
  apply BitVec.eq_of_toNat_eq
  rw [wordXy_toNat, ← ho, ← hn, opField_toNat, xField_val, yField_val, nField_toNat]
  omega

/-- A word whose y field is 0 as well, as the two shifts have it. -/
theorem wordXy_zero_of_fields {w : Word} {o n : BitVec 4} (ho : opField w = o) (hn : nField w = n)
    (hy : yField w = 0) : wordXy o (xField w) 0 n = w := by
  rw [← hy]
  exact wordXy_of_fields ho hn

/-! ## Every word is the encoding of what it decodes to -/

/-- No bit of a word is dropped by the decoder. -/
theorem encode_decodeWord (w : Word) : encode (decodeWord w) = w := by
  unfold decodeWord
  rcases field_cases (opField w) with h | h | h | h | h | h | h | h | h | h | h | h | h
  · rw [decode_op0 h]
    split_ifs with hcls hret
    · exact hcls.symm
    · exact hret.symm
    · rfl
  · rw [decode_op1 h]
    exact wordNnn_of_fields h
  · rw [decode_op2 h]
    exact wordNnn_of_fields h
  · rw [decode_op3 h]
    exact wordXkk_of_fields h
  · rw [decode_op4 h]
    exact wordXkk_of_fields h
  · rw [decode_op5 h]
    split_ifs with hn
    · exact wordXy_of_fields h hn
    · rfl
  · rw [decode_op6 h]
    exact wordXkk_of_fields h
  · rw [decode_op7 h]
    exact wordXkk_of_fields h
  · rw [decode_op8 h]
    split_ifs with h0 h1 h2 h3 h4 h5 h6 h7 hE
    · exact wordXy_of_fields h h0
    · exact wordXy_of_fields h h1
    · exact wordXy_of_fields h h2
    · exact wordXy_of_fields h h3
    · exact wordXy_of_fields h h4
    · exact wordXy_of_fields h h5
    · obtain ⟨hn, hy⟩ := h6
      exact wordXy_zero_of_fields h hn (by simpa [Config.shiftYDontCare] using hy)
    · exact wordXy_of_fields h h7
    · obtain ⟨hn, hy⟩ := hE
      exact wordXy_zero_of_fields h hn (by simpa [Config.shiftYDontCare] using hy)
    · rfl
  · rw [decode_op9 h]
    split_ifs with hn
    · exact wordXy_of_fields h hn
    · rfl
  · rw [decode_opA h]
    exact wordNnn_of_fields h
  · rw [decode_opB h]
    exact wordNnn_of_fields h
  · rw [decode_opHigh h]
    rfl

/-- A word that decodes to an instruction is the instruction's encoding. -/
theorem eq_encode_of_decodeWord {w : Word} {i : Instr} (h : decodeWord w = i) : w = encode i := by
  rw [← h, encode_decodeWord]

/-! ## The rows' masks and matches in terms of fields -/

/-- Mask 0xF000 tests the op field. -/
theorem and_maskOp_eq_iff {w : Word} {o : BitVec 4} : w &&& 0xF000#16 = wordNnn o 0#12 ↔ opField w = o := by
  rw [← BitVec.toNat_inj, ← BitVec.toNat_inj, maskOp_toNat, wordNnn_toNat]
  simp

/-- Mask 0xF00F tests the op and n fields. -/
theorem and_maskOpN_eq_iff {w : Word} {o n : BitVec 4} :
    w &&& 0xF00F#16 = wordXy o 0 0 n ↔ opField w = o ∧ nField w = n := by
  have h1 := (nField w).isLt
  have h2 := n.isLt
  rw [← BitVec.toNat_inj, ← BitVec.toNat_inj, ← BitVec.toNat_inj, maskOpN_toNat, wordXy_toNat, Fin.val_zero]
  omega

/-- Mask 0xF0FF tests the op, n and y fields. -/
theorem and_maskOpKk_eq_iff {w : Word} {o n : BitVec 4} :
    w &&& 0xF0FF#16 = wordXy o 0 0 n ↔ opField w = o ∧ nField w = n ∧ yField w = 0 := by
  have h1 := (kkField w).isLt
  have h2 := n.isLt
  rw [← BitVec.toNat_inj, ← BitVec.toNat_inj, ← BitVec.toNat_inj, Fin.ext_iff, maskOpKk_toNat, wordXy_toNat,
    kkField_toNat, nField_toNat, yField_val, Fin.val_zero]
  omega

/-- The shifts' mask tests the y field unless `SHIFT_Y_DONT_CARE` (D10). -/
theorem and_shiftMask_eq_iff {yDontCare : Bool} {w : Word} {o n : BitVec 4} :
    w &&& shiftMask yDontCare = wordXy o 0 0 n ↔
      opField w = o ∧ nField w = n ∧ (yField w = 0 ∨ yDontCare = true) := by
  cases yDontCare
  · simpa [shiftMask] using and_maskOpKk_eq_iff
  · simpa [shiftMask] using and_maskOpN_eq_iff

/-- Mask 0xFFFF tests the whole word. -/
theorem and_maskAll_eq_iff {w v : Word} : w &&& 0xFFFF#16 = v ↔ w = v := by
  rw [show 0xFFFF#16 = BitVec.allOnes 16 from rfl, BitVec.and_allOnes]

/-- The opcode table with each match written by its fields. -/
theorem opcodeTableWith_eq (yDontCare : Bool) : opcodeTableWith yDontCare =
    [⟨1, 0xFFFF#16, 0x00E0#16⟩, ⟨2, 0xFFFF#16, 0x00EE#16⟩, ⟨3, 0xF000#16, wordNnn 1#4 0#12⟩,
      ⟨4, 0xF000#16, wordNnn 2#4 0#12⟩, ⟨5, 0xF000#16, wordNnn 3#4 0#12⟩, ⟨6, 0xF000#16, wordNnn 4#4 0#12⟩,
      ⟨7, 0xF00F#16, wordXy 5#4 0 0 0#4⟩, ⟨8, 0xF000#16, wordNnn 6#4 0#12⟩, ⟨9, 0xF000#16, wordNnn 7#4 0#12⟩,
      ⟨10, 0xF00F#16, wordXy 8#4 0 0 0#4⟩, ⟨11, 0xF00F#16, wordXy 8#4 0 0 1#4⟩,
      ⟨12, 0xF00F#16, wordXy 8#4 0 0 2#4⟩, ⟨13, 0xF00F#16, wordXy 8#4 0 0 3#4⟩,
      ⟨14, 0xF00F#16, wordXy 8#4 0 0 4#4⟩, ⟨15, 0xF00F#16, wordXy 8#4 0 0 5#4⟩,
      ⟨16, shiftMask yDontCare, wordXy 8#4 0 0 6#4⟩, ⟨17, 0xF00F#16, wordXy 8#4 0 0 7#4⟩,
      ⟨18, shiftMask yDontCare, wordXy 8#4 0 0 14#4⟩, ⟨19, 0xF00F#16, wordXy 9#4 0 0 0#4⟩,
      ⟨20, 0xF000#16, wordNnn 10#4 0#12⟩, ⟨21, 0xF000#16, wordNnn 11#4 0#12⟩] := rfl

/-! ## The row a word decodes by -/

section
variable {yDontCare : Bool} {w : Word}

/-- The row of a word with op = 0. -/
theorem decodeRow_op0 (h : opField w = 0#4) : (decodeWordWith yDontCare w).row =
    if w = 0x00E0#16 then 1 else if w = 0x00EE#16 then 2 else 22 := by
  simp only [decode_op0 h, apply_ite Instr.row]
  rfl

/-- The row of a word with op = 5. -/
theorem decodeRow_op5 (h : opField w = 5#4) :
    (decodeWordWith yDontCare w).row = if nField w = 0#4 then 7 else 22 := by
  simp only [decode_op5 h, apply_ite Instr.row]
  rfl

/-- The row of a word with op = 8. -/
theorem decodeRow_op8 (h : opField w = 8#4) : (decodeWordWith yDontCare w).row =
    if nField w = 0#4 then 10
    else if nField w = 1#4 then 11
    else if nField w = 2#4 then 12
    else if nField w = 3#4 then 13
    else if nField w = 4#4 then 14
    else if nField w = 5#4 then 15
    else if nField w = 6#4 ∧ (yField w = 0 ∨ yDontCare = true) then 16
    else if nField w = 7#4 then 17
    else if nField w = 14#4 ∧ (yField w = 0 ∨ yDontCare = true) then 18
    else 22 := by
  simp only [decode_op8 h, apply_ite Instr.row]
  rfl

/-- The row of a word with op = 9. -/
theorem decodeRow_op9 (h : opField w = 9#4) :
    (decodeWordWith yDontCare w).row = if nField w = 0#4 then 19 else 22 := by
  simp only [decode_op9 h, apply_ite Instr.row]
  rfl

end

/-- A word matches a row exactly when it decodes by that row: once the op field is known, and for op = 8 the n field
too, each test of the table and each test of the decoder is decided but for the one they share. -/
theorem matchesWord_iff_decodeRow (yDontCare : Bool) (w : Word) : ∀ r ∈ opcodeTableWith yDontCare,
    (r.matchesWord w ↔ (decodeWordWith yDontCare w).row = r.row) := by
  simp only [opcodeTableWith_eq, List.forall_mem_cons, OpcodeRow.matchesWord, and_maskOp_eq_iff, and_maskOpN_eq_iff,
    and_shiftMask_eq_iff, and_maskAll_eq_iff]
  by_cases h : opField w = 0#4
  · have hret : w = 0x00EE#16 → w ≠ 0x00E0#16 := by
      rintro rfl
      decide
    simpa [decodeRow_op0 h, h, ite_eq_iff] using hret
  have hne := ne_special_of_op h
  rcases field_cases (opField w) with h | h | h | h | h | h | h | h | h | h | h | h | h
  · contradiction
  · simp [decode_op1 h, Instr.row, h, hne]
  · simp [decode_op2 h, Instr.row, h, hne]
  · simp [decode_op3 h, Instr.row, h, hne]
  · simp [decode_op4 h, Instr.row, h, hne]
  · simp [decodeRow_op5 h, h, hne, ite_eq_iff]
  · simp [decode_op6 h, Instr.row, h, hne]
  · simp [decode_op7 h, Instr.row, h, hne]
  · have hy : (¬ yField w = 0 → yDontCare = true) ↔ yField w = 0 ∨ yDontCare = true := or_iff_not_imp_left.symm
    rcases field_cases (nField w) with hn | hn | hn | hn | hn | hn | hn | hn | hn | hn | hn | hn | hn | hn | hn | hn <;>
      simp [decodeRow_op8 h, h, hne, hn, hy, ite_eq_iff]
  · simp [decodeRow_op9 h, h, hne, ite_eq_iff]
  · simp [decode_opA h, Instr.row, h, hne]
  · simp [decode_opB h, Instr.row, h, hne]
  · rcases h with h | h | h | h <;> simp [decode_opHigh (w := w) (by simp [h]), Instr.row, h, hne]

/-- Settles O24: the two agree row by row. -/
theorem decoderAgreesWithTheOpcodeTable : Obligations.DecoderAgreesWithTheOpcodeTable := matchesWord_iff_decodeRow

/-- A row of the opcode table is determined by its number. -/
theorem opcodeRow_eq_of_row (yDontCare : Bool) :
    ∀ r ∈ opcodeTableWith yDontCare, ∀ q ∈ opcodeTableWith yDontCare, r.row = q.row → r = q := by
  cases yDontCare <;> decide

/-- Settles O25: both rows carry the number of the row the word decodes by. -/
theorem opcodeRowsAreDisjoint : Obligations.OpcodeRowsAreDisjoint := by
  intro yDontCare w r hr q hq hrw hqw
  have hrow := (matchesWord_iff_decodeRow yDontCare w r hr).mp hrw
  have hqrow := (matchesWord_iff_decodeRow yDontCare w q hq).mp hqw
  exact opcodeRow_eq_of_row yDontCare r hr q hq (hrow.symm.trans hqrow)

/-! ## Unmatched words -/

/-- Rows are numbered 1 to 22. -/
theorem row_bounds (i : Instr) : 1 ≤ i.row ∧ i.row ≤ 22 := by
  cases i <;> simp [Instr.row]

/-- Row 22 stands for the unmatched words. -/
theorem eq_unmatched_of_row {i : Instr} (h : i.row = 22) : ∃ w, i = .unmatched w := by
  cases i
  case unmatched w => exact ⟨w, rfl⟩
  all_goals exact absurd h (by simp [Instr.row])

/-- A word decodes to the no-op exactly when it decodes by row 22. -/
theorem decodeWord_eq_unmatched_iff (w : Word) : decodeWord w = .unmatched w ↔ (decodeWord w).row = 22 := by
  refine ⟨fun h => by rw [h]; rfl, fun h => ?_⟩
  obtain ⟨v, hv⟩ := eq_unmatched_of_row h
  rw [hv, eq_encode_of_decodeWord hv]
  rfl

/-- The rows of the table are those numbered 1 to 21. -/
theorem rows_opcodeTable : opcodeTable.map OpcodeRow.row = List.range' 1 21 := by decide

/-- A word matches no row exactly when it decodes by row 22. -/
theorem isUnmatchedWord_iff (w : Word) : isUnmatchedWord w ↔ (decodeWord w).row = 22 := by
  have hbounds := row_bounds (decodeWord w)
  have hrows : (∀ r ∈ opcodeTable, ¬ r.matchesWord w) ↔ (decodeWord w).row ∉ opcodeTable.map OpcodeRow.row := by
    simp only [List.mem_map, not_exists, not_and]
    exact forall₂_congr fun r hr => by rw [matchesWord_iff_decodeRow _ w r hr, eq_comm]; rfl
  rw [isUnmatchedWord, hrows, rows_opcodeTable, List.mem_range'_1]
  omega

/-! ## Decode and encode agree -/

/-- What a word decodes to is well-formed. -/
theorem decodeWord_wf (w : Word) : (decodeWord w).WellFormed := by
  cases h : decodeWord w
  case unmatched v =>
    have hvw : w = v := eq_encode_of_decodeWord h
    have hv : isUnmatchedWord v := (isUnmatchedWord_iff v).mpr (by rw [← hvw, h]; rfl)
    exact decide_eq_true hv
  all_goals rfl

/-- Settles O27: the encoding keeps every bit, and an unmatched word matches no row. -/
theorem encodeOfDecodeIsTheWord : Obligations.EncodeOfDecodeIsTheWord :=
  fun w => ⟨decodeWord_wf w, encode_decodeWord w⟩

/-- The decoder reads every operand back from where the encoder put it. -/
theorem decodeWord_encode {i : Instr} (h : i.WellFormed) : decodeWord (encode i) = i := by
  unfold decodeWord
  cases i with
  | cls | ret => rfl
  | jp nnn => simp [encode, decode_op1 (opField_wordNnn 1#4 nnn)]
  | call nnn => simp [encode, decode_op2 (opField_wordNnn 2#4 nnn)]
  | seByte x kk => simp [encode, decode_op3 (opField_wordXkk 3#4 x kk)]
  | sneByte x kk => simp [encode, decode_op4 (opField_wordXkk 4#4 x kk)]
  | seReg x y => simp [encode, decode_op5 (opField_wordXy 5#4 x y 0#4)]
  | ldByte x kk => simp [encode, decode_op6 (opField_wordXkk 6#4 x kk)]
  | addByte x kk => simp [encode, decode_op7 (opField_wordXkk 7#4 x kk)]
  | ldReg x y | orReg x y | andReg x y | xorReg x y | addReg x y | subReg x y | subnReg x y =>
    simp [encode, decode_op8 (opField_wordXy 8#4 x y _)]
  | shr x | shl x => simp [encode, decode_op8 (opField_wordXy 8#4 x 0 _)]
  | sneReg x y => simp [encode, decode_op9 (opField_wordXy 9#4 x y 0#4)]
  | ldI nnn => simp [encode, decode_opA (opField_wordNnn 10#4 nnn)]
  | jpV0 nnn => simp [encode, decode_opB (opField_wordNnn 11#4 nnn)]
  | unmatched w => exact (decodeWord_eq_unmatched_iff w).mpr ((isUnmatchedWord_iff w).mp (of_decide_eq_true h))

/-- Settles O26: over words by the fields of the encoding, over bytes because a word is put together from its own
bytes. -/
theorem decodeOfEncodeIsTheInstruction : Obligations.DecodeOfEncodeIsTheInstruction := by
  intro i hi
  refine ⟨decodeWord_encode hi, fun rest => ?_⟩
  show Except.ok (decodeWord (wordOfBytes (highByte (encode i)) (lowByte (encode i))), rest) = .ok (i, rest)
  rw [wordOfBytes_bytes, decodeWord_encode hi]

/-- Settles O28: two bytes are a word, and every word decodes. -/
theorem decodingRefusesOnlyShortInput : Obligations.DecodingRefusesOnlyShortInput :=
  ⟨rfl, fun _ => rfl, fun hi lo _ => ⟨decodeWord (wordOfBytes hi lo), decodeWord_wf (wordOfBytes hi lo), rfl⟩⟩

/-- Settles O29: each of the nine words is evaluated. -/
theorem sampleWordsDecode : Obligations.SampleWordsDecode :=
  ⟨rfl, rfl, rfl, rfl, rfl, rfl, rfl, rfl, rfl⟩

/-- Settles O23: the words of row 22, op field by op field. -/
theorem unmatchedSpaceIsTheListedOne : Obligations.UnmatchedSpaceIsTheListedOne := by
  intro w op y n hop hy hn
  rw [← opField_toNat] at hop
  rw [← yField_val] at hy
  rw [← nField_toNat] at hn
  rw [decodeWord_eq_unmatched_iff, decodeWord]
  subst hop hy hn
  rcases field_cases (opField w) with h | h | h | h | h | h | h | h | h | h | h | h | h
  · simp [decodeRow_op0 h, h, ite_eq_iff, ← BitVec.toNat_inj]
  · simp [decode_op1 h, Instr.row, h]
  · simp [decode_op2 h, Instr.row, h]
  · simp [decode_op3 h, Instr.row, h]
  · simp [decode_op4 h, Instr.row, h]
  · simp [decodeRow_op5 h, h, ← BitVec.toNat_inj]
  · simp [decode_op6 h, Instr.row, h]
  · simp [decode_op7 h, Instr.row, h]
  · rcases field_cases (nField w) with hn | hn | hn | hn | hn | hn | hn | hn | hn | hn | hn | hn | hn | hn | hn | hn <;>
      simp [decodeRow_op8 h, h, hn, Config.shiftYDontCare]
  · simp [decodeRow_op9 h, h, ← BitVec.toNat_inj]
  · simp [decode_opA h, Instr.row, h]
  · simp [decode_opB h, Instr.row, h]
  · rcases h with h | h | h | h <;> simp [decode_opHigh (w := w) (by simp [h]), Instr.row, h]

end Sys2Proof
end

section
/-! Fetch and step (40_engine.md R110, R111; 60_exceptions.md R203, R205, R212): the word fetched, what a step does
within the array and beyond it, and the causes of a fault. -/

namespace Sys2Proof.Machine

open Sys2Proof.Claims

/-! ## The fetch -/

/-- The value of a word put together from two bytes. -/
theorem wordOfBytes_toNat (hi lo : Byte) : (wordOfBytes hi lo).toNat = hi.toNat * 256 + lo.toNat := by
  rw [wordOfBytes, BitVec.toNat_append, ← Nat.shiftLeft_add_eq_or_of_lt lo.isLt, Nat.shiftLeft_eq]

/-- Settles O30: both bytes lie in the array, whatever the parity of the pc. -/
theorem fetchIsBigEndianAtAnyAddress : Obligations.FetchIsBigEndianAtAnyAddress :=
  fun _ h => ⟨_, fetch_of_le (Nat.succ_le_succ h), wordOfBytes_toNat _ _⟩

/-- A fetch that gives a word has both its bytes in the array. -/
theorem pc_le_of_fetch {s : State} {w : Word} (h : fetch s = .ok w) : s.pc.toNat ≤ 0xFFE := by
  by_contra hpc
  rw [fetch_of_gt (by omega)] at h
  cases h

/-! ## A step within the array and beyond it -/

/-- A step whose fetch faults enters that fault after the due tick. -/
theorem step_of_fetch_error {s : State} {r : FaultRecord} (hs : s.halted = false) (h : fetch s = .error r) :
    step s = .next (raiseFault r (tickIfDue s)) := by
  have he : engineStep (tickIfDue s) = .next (raiseFault r (tickIfDue s)) := by
    simp only [engineStep, fetch_tickIfDue, h]
  simp [step_of_live hs, he, endIteration]

/-- A step whose fetch gives a word runs its meaning after the due tick. -/
theorem step_of_fetch_ok {s t : State} {w : Word} (hs : s.halted = false) (h : fetch s = .ok w)
    (ht : exec (decodeWord w) (tickIfDue s) = .next t) : step s = .next (endIteration t) := by
  have he : engineStep (tickIfDue s) = .next t := by
    simp only [engineStep, fetch_tickIfDue, h, ht]
  simp only [step_of_live hs, he]

/-- Settles O31: the fetch beyond the array faults, and its fault is entered after the due tick. -/
theorem fetchBeyondMemoryFaults : Obligations.FetchBeyondMemoryFaults := by
  intro s hs
  refine ⟨fun hpc => ?last, fun hpc => ?beyond⟩
  case last =>
    have hf : fetch s = .error (.execMemBounds 0x1000) := by rw [fetch_of_gt (by omega), if_pos hpc]
    exact ⟨_, step_of_fetch_error hs hf, faultEntered_raiseFault _ _, tickIfDue_pc s⟩
  case beyond =>
    have hf : fetch s = .error (.execMemBounds s.pc.toNat) := by rw [fetch_of_gt (by omega), if_neg (by omega)]
    exact ⟨_, step_of_fetch_error hs hf, faultEntered_raiseFault _ _, tickIfDue_pc s⟩

/-- Settles O32: the two bytes at the pc are the word fetched, and every meaning answers a next state. -/
theorem stepRunsTheDecodedInstruction : Obligations.StepRunsTheDecodedInstruction := by
  intro s i hs hpc hdec
  have hi : decodeWord (wordOfBytes (s.mem.byteAt s.pc.toNat) (s.mem.byteAt (s.pc.toNat + 1))) = i :=
    congrArg Prod.fst (Except.ok.inj hdec)
  obtain ⟨t, ht⟩ := exec_answers_next i (tickIfDue s)
  rw [step_of_fetch_ok hs (fetch_of_le (Nat.succ_le_succ hpc)) (by rw [hi, ht]), ht]
  rfl

/-- Settles O33: the tick due and the tick not due. -/
theorem tickDecrementsBothCountersWhenDue : Obligations.TickDecrementsBothCountersWhenDue := by
  refine fun s => ⟨fun hdue => ?due, fun hnot => tickIfDue_of_ne hnot⟩
  case due =>
    rw [tickIfDue_of_eq hdue]
    exact ⟨rfl, rfl, rfl, rfl⟩

end Sys2Proof.Machine
end

section
/-! What an instruction can do, said once for all twenty-two (40_engine.md R114, R119; 10_state.md R23), and the
whole-machine rules that follow from it. -/

namespace Sys2Proof.Machine

open Sys2Proof.Claims

/-! ## The effects of the instructions -/

/-- The effects an instruction can have on a state: an advance after writes to registers, I and the video buffer; a
conditional skip; a jump; CALL and RET within the stack's bounds; and their faults at the bounds. -/
inductive Effect (s : State) : Instr → State → Prop where
  | advances {i : Instr} (V : Vector Byte 16) (I : Addr) (video : Vector (Vector Bool 32) 64)
      (hclass : pcClass i = .advances) (hV : ∀ r : RegIdx, r ∉ writtenRegisters i → V[r.val] = s.readV r)
      (hI : (∃ nnn, i = .ldI nnn ∧ I = addrOperand nnn) ∨ I = s.I) (hvideo : i ≠ .cls → video = s.video) :
      Effect s i (advance { s with V := V, I := I, video := video })
  | skips {i : Instr} (c : Bool) (hclass : pcClass i = .skipsOrAdvances) : Effect s i (skipIf c s)
  | jp (nnn : Addr12) : Effect s (.jp nnn) (jump (addrOperand nnn) s)
  | jpV0 (nnn : Addr12) : Effect s (.jpV0 nnn) (jump (offsetTarget nnn s) s)
  | call (nnn : Addr12) (h : s.sp.val < 16) :
      Effect s (.call nnn) (jump (addrOperand nnn) (pushed (s.pc + 2) s h))
  | callFull (nnn : Addr12) (h : s.sp.val = 16) : Effect s (.call nnn) (raiseFault (.execStackOverflow s.pc) s)
  | ret (h : 0 < s.sp.val) : Effect s .ret (jump s.stack[s.sp.val - 1] (popped s))
  | retEmpty (h : s.sp.val = 0) : Effect s .ret (raiseFault (.execStackUnderflow s.pc) s)

/-- An advance after writes to registers only. -/
theorem Effect.advance_registers {i : Instr} {s u : State} (hclass : pcClass i = .advances)
    (hu : u = { s with V := u.V }) (hV : ∀ r : RegIdx, r ∉ writtenRegisters i → u.readV r = s.readV r) :
    Effect s i (advance u) := by
  rw [hu]
  exact .advances u.V s.I s.video hclass hV (.inr rfl) fun _ => rfl

/-- An advance after a write to one register. -/
theorem Effect.advance_writeV {i : Instr} {s : State} {x : RegIdx} (b : Byte) (hclass : pcClass i = .advances)
    (hx : writtenRegisters i = [x]) : Effect s i (advance (s.writeV x b)) :=
  .advance_registers hclass rfl fun r hr => readV_writeV_ne s x r b (by simpa [hx] using hr)

/-- An advance after a flag and a result, in either order. -/
theorem Effect.advance_writeFlagAndResult {i : Instr} {s : State} {x : RegIdx} (o : AluOrder)
    (flag result : State → Byte) (hclass : pcClass i = .advances) (hx : writtenRegisters i = [x, flagReg]) :
    Effect s i (advance (writeFlagAndResult o x flag result s)) := by
  refine .advance_registers hclass (writeFlagAndResult_frame o x flag result s) fun r hr => ?_
  obtain ⟨hrx, hrf⟩ : r ≠ x ∧ r ≠ flagReg := by simpa [hx] using hr
  cases o with
  | asListed => rw [readV_writeListed, if_neg hrx, if_neg hrf]
  | latched => rw [readV_writeLatched, if_neg hrf, if_neg hrx]

/-- Everything an instruction can do. -/
theorem exec_effect {i : Instr} {s t : State} (h : exec i s = .next t) : Effect s i t := by
  cases i with
  | cls =>
    cases h
    exact .advances s.V s.I clearVideo rfl (fun _ _ => rfl) (.inr rfl) (absurd rfl)
  | ret =>
    by_cases hs : s.sp.val = 0
    · cases (exec_ret_of_empty hs).symm.trans h
      exact .retEmpty hs
    · cases (exec_ret_of_pos (Nat.pos_of_ne_zero hs)).symm.trans h
      exact .ret (Nat.pos_of_ne_zero hs)
  | jp nnn =>
    cases h
    exact .jp nnn
  | call nnn =>
    by_cases hs : s.sp.val < 16
    · cases (exec_call_of_lt nnn hs).symm.trans h
      exact .call nnn hs
    · have hfull : s.sp.val = 16 := by omega
      cases (exec_call_of_full nnn hfull).symm.trans h
      exact .callFull nnn hfull
  | seByte | sneByte | seReg | sneReg =>
    cases h
    exact .skips _ rfl
  | ldByte | addByte | ldReg | orReg | andReg | xorReg =>
    cases h
    exact .advance_writeV _ rfl rfl
  | addReg | subReg | shr | subnReg | shl =>
    cases h
    exact .advance_writeFlagAndResult _ _ _ rfl rfl
  | ldI nnn =>
    cases h
    exact .advances s.V (addrOperand nnn) s.video rfl (fun _ _ => rfl) (.inl ⟨nnn, rfl, rfl⟩) fun _ => rfl
  | jpV0 nnn =>
    cases h
    exact .jpV0 nnn
  | unmatched w =>
    cases h
    exact .advance_registers rfl rfl fun _ _ => rfl

/-! ## What instructions leave unchanged -/

/-- A conditional skip is the state with another pc. -/
theorem skipIf_frame (c : Bool) (s : State) : skipIf c s = { s with pc := (skipIf c s).pc } := (onlyPc_skipIf c s).1

/-- No instruction writes memory, the counters or the run-loop state. -/
theorem Effect.frame {i : Instr} {s t : State} (h : Effect s i t) : t = { s with
    V := t.V, pc := t.pc, I := t.I, stack := t.stack, sp := t.sp, video := t.video, halted := t.halted,
    fault := t.fault } := by
  cases h with
  | skips c => rw [skipIf_frame]
  | _ => rfl

/-- Registers outside the written-register table are left. -/
theorem Effect.readV {i : Instr} {s t : State} (h : Effect s i t) {r : RegIdx} (hr : r ∉ writtenRegisters i) :
    t.readV r = s.readV r := by
  cases h with
  | advances V I video hclass hV => exact hV r hr
  | skips c => rw [skipIf_frame]; rfl
  | _ => rfl

/-- I is left but for LD I, which loads its operand. -/
theorem Effect.I {i : Instr} {s t : State} (h : Effect s i t) :
    (∃ nnn, i = .ldI nnn ∧ t.I = addrOperand nnn) ∨ t.I = s.I := by
  cases h with
  | advances V I video hclass hV hI => exact hI
  | skips c => exact .inr (by rw [skipIf_frame])
  | _ => exact .inr rfl

/-- I is left by every instruction but LD I. -/
theorem Effect.I_left {i : Instr} {s t : State} (h : Effect s i t) (hi : ∀ nnn, i ≠ .ldI nnn) : t.I = s.I := by
  obtain ⟨nnn, hldI, -⟩ | hI := h.I
  · exact absurd hldI (hi nnn)
  · exact hI

/-- The video buffer is left but for CLS. -/
theorem Effect.video {i : Instr} {s t : State} (h : Effect s i t) (hi : i ≠ .cls) : t.video = s.video := by
  cases h with
  | advances V I video hclass hV hI hvideo => exact hvideo hi
  | skips c => rw [skipIf_frame]
  | _ => rfl

/-- The stack and the fault status are left but for RET and CALL. -/
theorem Effect.stack_fault {i : Instr} {s t : State} (h : Effect s i t) (hret : i ≠ .ret)
    (hcall : ∀ nnn, i ≠ .call nnn) :
    t.stack = s.stack ∧ t.sp = s.sp ∧ t.halted = s.halted ∧ t.fault = s.fault := by
  cases h with
  | skips c => rw [skipIf_frame]; exact ⟨rfl, rfl, rfl, rfl⟩
  | call nnn | callFull nnn => exact absurd rfl (hcall nnn)
  | ret | retEmpty => exact absurd rfl hret
  | _ => exact ⟨rfl, rfl, rfl, rfl⟩

/-- Memory, the counters and the run-loop state are left by every instruction. -/
theorem Effect.runLoop {i : Instr} {s t : State} (h : Effect s i t) :
    t.mem = s.mem ∧ t.delay = s.delay ∧ t.sound = s.sound ∧ t.cycleCounter = s.cycleCounter ∧ t.cpt = s.cpt ∧
      t.perInstructionDelay = s.perInstructionDelay := by
  rw [h.frame]
  exact ⟨rfl, rfl, rfl, rfl, rfl, rfl⟩

/-- Settles O38: each piece of the state is left by every effect but those the table names. -/
theorem instructionsWriteOnlyTheirState : Obligations.InstructionsWriteOnlyTheirState := by
  intro i s t h
  have he := exec_effect h
  obtain ⟨hmem, hrest⟩ := he.runLoop
  exact ⟨fun r hr => he.readV hr, he.I_left, he.video, he.stack_fault, hmem, fun a => by rw [hmem], hrest⟩

/-! ## The pc -/

/-- The pc after an instruction that completed. -/
theorem Effect.pc_outcome {i : Instr} {s t : State} (h : Effect s i t) (hlive : t.halted = false) :
    (pcClass i = .advances ∧ t.pc = s.pc + 2) ∨
    (pcClass i = .skipsOrAdvances ∧ (t.pc = s.pc + 2 ∨ t.pc = s.pc + 4)) ∨
    (pcClass i = .jumps ∧ jumpTarget s i = some t.pc.toNat) := by
  cases h with
  | advances V I video hclass => exact .inl ⟨hclass, rfl⟩
  | skips c hclass =>
    refine .inr (.inl ⟨hclass, ?_⟩)
    cases c
    · exact .inl rfl
    · exact .inr rfl
  | jp nnn => exact .inr (.inr ⟨rfl, by rw [jump_pc, addrOperand_toNat]; rfl⟩)
  | jpV0 nnn => exact .inr (.inr ⟨rfl, by rw [jump_pc, offsetTarget_toNat]; rfl⟩)
  | call nnn => exact .inr (.inr ⟨rfl, by rw [jump_pc, addrOperand_toNat]; rfl⟩)
  | ret hs => exact .inr (.inr ⟨rfl, by rw [jumpTarget, getLast?_liveStack hs]; rfl⟩)
  | callFull | retEmpty => cases hlive

/-- Settles O39: the outcome of each class of row is the one its effects have. -/
theorem pcOutcomeFollowsTheRow : Obligations.PcOutcomeFollowsTheRow := by
  intro i s t _ h hlive
  obtain ⟨hclass, hpc⟩ | ⟨hclass, hpc⟩ | ⟨hclass, hpc⟩ := (exec_effect h).pc_outcome hlive <;> rw [hclass]
  · exact ⟨fun _ => hpc, nofun, nofun⟩
  · exact ⟨nofun, fun _ => hpc, nofun⟩
  · exact ⟨nofun, nofun, fun _ => hpc⟩

/-- An even address stays even under an even increment, whether or not it wraps. -/
theorem even_add {a b : Addr} (ha : a.toNat % 2 = 0) (hb : b.toNat % 2 = 0) : (a + b).toNat % 2 = 0 := by
  rw [BitVec.toNat_add]
  omega

/-- Settles O40: an increment is by 2 or 4, a return address is an increment, and a pop jumps to a live entry. -/
theorem evenTargetsKeepThePcEven : Obligations.EvenTargetsKeepThePcEven := by
  intro i s t hs htarget h
  obtain ⟨hpc, hentries⟩ := hs
  have hnext : (s.pc + 2).toNat % 2 = 0 := even_add hpc rfl
  cases exec_effect h with
  | advances => exact ⟨hnext, hentries⟩
  | skips c =>
    cases c
    · exact ⟨hnext, hentries⟩
    · exact ⟨even_add hpc rfl, hentries⟩
  | jp nnn => exact ⟨(congrArg (· % 2) (addrOperand_toNat nnn)).trans htarget, hentries⟩
  | jpV0 nnn => exact ⟨(congrArg (· % 2) (offsetTarget_toNat nnn s)).trans htarget, hentries⟩
  | call nnn hlt =>
    refine ⟨(congrArg (· % 2) (addrOperand_toNat nnn)).trans htarget, fun k hk => ?_⟩
    have hk : k.val < s.sp.val + 1 := hk
    simp only [jump_stack, pushed, Vector.getElem_set]
    split
    · exact hnext
    · exact hentries k (by omega)
  | ret hpos =>
    exact ⟨hentries ⟨s.sp.val - 1, by omega⟩ (Nat.sub_lt hpos Nat.one_pos),
      fun k hk => hentries k (Nat.lt_of_lt_of_le hk (Nat.sub_le _ _))⟩
  | callFull | retEmpty => exact ⟨hpc, hentries⟩

/-! ## The end of an iteration, faults and increments of a step -/

/-- The end of an iteration leaves the fault status. -/
@[simp] theorem endIteration_halted (s : State) : (endIteration s).halted = s.halted := by
  unfold endIteration
  split <;> rfl

/-- The end of an iteration leaves the pc. -/
@[simp] theorem endIteration_pc (s : State) : (endIteration s).pc = s.pc := by
  unfold endIteration
  split <;> rfl

/-- An iteration that raised a fault is not counted. -/
theorem endIteration_of_halted {s : State} (h : s.halted = true) : endIteration s = s := if_pos h

/-- A completed iteration is counted. -/
theorem endIteration_of_live {s : State} (h : s.halted = false) : endIteration s = countCycle s := if_neg (by simp [h])

/-- Only RET on no entry and CALL on sixteen raise a fault. -/
theorem Effect.fault_cases {i : Instr} {s t : State} (h : Effect s i t) (hs : s.halted = false)
    (ht : t.halted = true) :
    (i = .ret ∧ s.sp.val = 0 ∧ t = raiseFault (.execStackUnderflow s.pc) s) ∨
    (∃ nnn, i = .call nnn ∧ s.sp.val = 16 ∧ t = raiseFault (.execStackOverflow s.pc) s) := by
  cases h with
  | callFull nnn hfull => exact .inr ⟨nnn, rfl, hfull, rfl⟩
  | retEmpty hempty => exact .inl ⟨rfl, hempty, rfl⟩
  | skips c =>
    rw [skipIf_frame] at ht
    exact absurd (hs.symm.trans ht) Bool.false_ne_true
  | _ => exact absurd (hs.symm.trans ht) Bool.false_ne_true

/-- Settles O36: a fault is one of the fetch, or of a RET or a CALL, whose word is then known from its encoding. -/
theorem faultsArePreciseAndOnlyThese : Obligations.FaultsArePreciseAndOnlyThese := by
  intro s t hs hstep ht
  obtain ⟨r, hfetch, rfl⟩ | ⟨w, u, hfetch, hexec, rfl⟩ := step_next_cases hstep
  · refine ⟨r, ?_, faultEntered_raiseFault r (tickIfDue s)⟩
    have hpc : 0xFFF < s.pc.toNat + 1 := by
      by_contra hle
      rw [fetch_of_le (by omega)] at hfetch
      cases hfetch
    obtain rfl : _ = r := Except.error.inj ((fetch_of_gt hpc).symm.trans hfetch)
    show 0xFFF < _ ∧ _
    split <;> omega
  · rw [endIteration_halted] at ht
    rw [endIteration_of_halted ht]
    obtain ⟨hi, hsp, hu⟩ | ⟨nnn, hi, hsp, hu⟩ :=
      (exec_effect hexec).fault_cases ((tickIfDue_halted s).trans hs) ht
    · rw [tickIfDue_sp] at hsp
      rw [tickIfDue_pc] at hu
      have hw : w = 0x00EE := eq_encode_of_decodeWord hi
      exact ⟨.execStackUnderflow s.pc, ⟨rfl, hsp, hw ▸ hfetch⟩, hu ▸ faultEntered_raiseFault _ _⟩
    · rw [tickIfDue_sp] at hsp
      rw [tickIfDue_pc] at hu
      have hw : w.toNat / 4096 = 2 := by
        have := nnn.isLt
        rw [eq_encode_of_decodeWord hi, encode, wordNnn_toNat, BitVec.toNat_ofNat]
        omega
      exact ⟨.execStackOverflow s.pc, ⟨rfl, hsp, w, hfetch, hw⟩, hu ▸ faultEntered_raiseFault _ _⟩

/-- Settles O54: a pc from which a word was fetched is at most 0xFFE, so the increment does not wrap. -/
theorem pcIncrementsNeverWrap : Obligations.PcIncrementsNeverWrap := by
  intro s t w _ hstep hlive hfetch hclass
  have hpc := pc_le_of_fetch hfetch
  obtain ⟨r, hr, -⟩ | ⟨v, u, hv, hexec, rfl⟩ := step_next_cases hstep
  · cases hr.symm.trans hfetch
  · obtain rfl : v = w := Except.ok.inj (hv.symm.trans hfetch)
    rw [endIteration_halted] at hlive
    rw [endIteration_pc]
    obtain ⟨-, hu⟩ | ⟨-, hu | hu⟩ | ⟨hjumps, -⟩ := (exec_effect hexec).pc_outcome hlive
    case inr.inr => exact absurd hjumps hclass
    all_goals
      rw [hu, tickIfDue_pc]
      bv_omega

end Sys2Proof.Machine
end

section
/-! Noninterference (10_state.md R27, R29, R30, R32, R34): what an instruction does depends on the registers, the pc, sp
and the live stack entries only. -/

namespace Sys2Proof.Machine

open Sys2Proof.Claims

/-- From two states the same instruction left read states that agree, and did the same to each stack entry and to the
fault status. -/
def ActedAlike (s s' t t' : State) : Prop :=
  AgreeOnReadState t t' ∧ (∀ k : Fin 16, SameEffectOn (fun u => u.stack[k.val]) s s' t t') ∧
  SameEffectOn (fun u => (u.halted, u.fault)) s s' t t'

section
variable {s s' : State} (hs : AgreeOnReadState s s')
include hs

/-- States that agree on what is read have the same register file. -/
theorem registers_eq_of_agree : s.V = s'.V := by
  obtain ⟨hregs, -⟩ := hs
  exact Vector.ext fun k hk => hregs ⟨k, hk⟩

/-- Instructions that leave the stack and the fault status act alike when they leave the same registers and pc. -/
theorem actedAlike_of_left {t t' : State} (hV : t.V = t'.V) (hpc : t.pc = t'.pc)
    (hleft : t.stack = s.stack ∧ t.sp = s.sp ∧ t.halted = s.halted ∧ t.fault = s.fault)
    (hleft' : t'.stack = s'.stack ∧ t'.sp = s'.sp ∧ t'.halted = s'.halted ∧ t'.fault = s'.fault) :
    ActedAlike s s' t t' := by
  obtain ⟨-, -, hsp, hlive⟩ := hs
  obtain ⟨hstack, hsp_t, hhalted, hfault⟩ := hleft
  obtain ⟨hstack', hsp_t', hhalted', hfault'⟩ := hleft'
  refine ⟨⟨fun r => ?_, hpc, ?_, fun k hk => ?_⟩, fun k => .inl ⟨?_, ?_⟩, .inl ⟨?_, ?_⟩⟩
  · rw [State.readV, State.readV, hV]
  · rw [hsp_t, hsp_t', hsp]
  · simp only [hstack, hstack']
    exact hlive k (hsp_t ▸ hk)
  · simp only [hstack]
  · simp only [hstack']
  · simp only [hhalted, hfault]
  · simp only [hhalted', hfault']

/-- The same fault entry acts alike. -/
theorem actedAlike_raiseFault (r : FaultRecord) : ActedAlike s s' (raiseFault r s) (raiseFault r s') :=
  ⟨hs, fun _ => .inl ⟨rfl, rfl⟩, .inr rfl⟩

/-- A push of the same value and a jump to the same target act alike: the entry written is the same one. -/
theorem actedAlike_pushed (a v : Addr) (h : s.sp.val < 16) (h' : s'.sp.val < 16) :
    ActedAlike s s' (jump a (pushed v s h)) (jump a (pushed v s' h')) := by
  obtain ⟨hregs, -, hsp, hlive⟩ := hs
  refine ⟨⟨hregs, rfl, Fin.ext (by simp [pushed, hsp]), fun k hk => ?live⟩, fun k => ?entry, .inl ⟨rfl, rfl⟩⟩
  case live =>
    have hk : k.val < s.sp.val + 1 := hk
    simp only [jump_stack, pushed, Vector.getElem_set, ← hsp]
    split
    · rfl
    · exact hlive k (by omega)
  case entry =>
    simp only [SameEffectOn, jump_stack, pushed, Vector.getElem_set, ← hsp]
    split
    · exact .inr rfl
    · exact .inl ⟨rfl, rfl⟩

/-- A pop and a jump to the entry popped act alike: the entry is a live one. -/
theorem actedAlike_popped (h : 0 < s.sp.val) :
    ActedAlike s s' (jump s.stack[s.sp.val - 1] (popped s)) (jump s'.stack[s'.sp.val - 1] (popped s')) := by
  obtain ⟨hregs, -, hsp, hlive⟩ := hs
  have htop : s.stack[s.sp.val - 1] = s'.stack[s'.sp.val - 1] := by
    have := hlive ⟨s.sp.val - 1, by omega⟩ (Nat.sub_lt h Nat.one_pos)
    simpa only [hsp] using this
  exact ⟨⟨hregs, htop, Fin.ext (by simp [popped, hsp]),
    fun k hk => hlive k (Nat.lt_of_lt_of_le hk (Nat.sub_le _ _))⟩, fun _ => .inl ⟨rfl, rfl⟩, .inl ⟨rfl, rfl⟩⟩

/-- CALL acts alike. -/
theorem call_actedAlike {nnn : Addr12} {t t' : State} (h : exec (.call nnn) s = .next t)
    (h' : exec (.call nnn) s' = .next t') : ActedAlike s s' t t' := by
  obtain ⟨-, hpc, hsp, -⟩ := id hs
  by_cases hlt : s.sp.val < 16
  · have hlt' : s'.sp.val < 16 := hsp ▸ hlt
    cases (exec_call_of_lt nnn hlt).symm.trans h
    cases (exec_call_of_lt nnn hlt').symm.trans h'
    rw [← hpc]
    exact actedAlike_pushed hs (addrOperand nnn) (s.pc + 2) hlt hlt'
  · have hfull : s.sp.val = 16 := by omega
    cases (exec_call_of_full nnn hfull).symm.trans h
    cases (exec_call_of_full nnn (hsp ▸ hfull)).symm.trans h'
    rw [← hpc]
    exact actedAlike_raiseFault hs (.execStackOverflow s.pc)

/-- RET acts alike. -/
theorem ret_actedAlike {t t' : State} (h : exec .ret s = .next t) (h' : exec .ret s' = .next t') :
    ActedAlike s s' t t' := by
  obtain ⟨-, hpc, hsp, -⟩ := id hs
  by_cases hempty : s.sp.val = 0
  · cases (exec_ret_of_empty hempty).symm.trans h
    cases (exec_ret_of_empty (hsp ▸ hempty)).symm.trans h'
    rw [← hpc]
    exact actedAlike_raiseFault hs (.execStackUnderflow s.pc)
  · have hpos : 0 < s.sp.val := Nat.pos_of_ne_zero hempty
    cases (exec_ret_of_pos hpos).symm.trans h
    cases (exec_ret_of_pos (hsp ▸ hpos)).symm.trans h'
    exact actedAlike_popped hs hpos

end

/-- The registers and the pc an instruction leaves are functions of those it found, RET and CALL apart: with the first
state's written into the second, both runs compute the same terms. -/
theorem exec_registers_pc_congr {i : Instr} {s s' t t' : State} (hV : s.V = s'.V) (hpc : s.pc = s'.pc)
    (hret : i ≠ .ret) (hcall : ∀ nnn, i ≠ .call nnn) (h : exec i s = .next t) (h' : exec i s' = .next t') :
    t.V = t'.V ∧ t.pc = t'.pc := by
  have hs' : s' = { s' with V := s.V, pc := s.pc } := by rw [hV, hpc]
  rw [hs'] at h'
  cases i
  case ret => exact absurd rfl hret
  case call nnn => exact absurd rfl (hcall nnn)
  all_goals
    cases h
    cases h'
  case seByte | sneByte | seReg | sneReg =>
    rw [skipIf_eq, skipIf_eq]
    exact ⟨rfl, rfl⟩
  all_goals exact ⟨rfl, rfl⟩

/-- Every instruction acts alike. -/
theorem exec_actedAlike {i : Instr} {s s' t t' : State} (hs : AgreeOnReadState s s') (h : exec i s = .next t)
    (h' : exec i s' = .next t') : ActedAlike s s' t t' := by
  by_cases hret : i = .ret
  · subst hret
    exact ret_actedAlike hs h h'
  by_cases hcall : ∃ nnn, i = .call nnn
  · obtain ⟨nnn, rfl⟩ := hcall
    exact call_actedAlike hs h h'
  have hcall : ∀ nnn, i ≠ .call nnn := fun nnn e => hcall ⟨nnn, e⟩
  obtain ⟨-, hpc_s, -⟩ := id hs
  obtain ⟨hV, hpc⟩ := exec_registers_pc_congr (registers_eq_of_agree hs) hpc_s hret hcall h h'
  exact actedAlike_of_left hs hV hpc ((exec_effect h).stack_fault hret hcall) ((exec_effect h').stack_fault hret hcall)

/-- LD I loads the same value from every two states. -/
theorem ldI_same_I {nnn : Addr12} {s s' t t' : State} (h : exec (.ldI nnn) s = .next t)
    (h' : exec (.ldI nnn) s' = .next t') : t.I = t'.I := by
  cases h
  cases h'
  rfl

/-- CLS leaves the same buffer in every two states. -/
theorem cls_same_video {s s' t t' : State} (h : exec .cls s = .next t) (h' : exec .cls s' = .next t') :
    t.video = t'.video := by
  cases h
  cases h'
  rfl

/-- Settles O41: the read state, the stack and the fault status by `ActedAlike`, I and the video buffer because only
LD I and CLS write them, and the rest because nothing writes it. -/
theorem instructionsReadOnlyRegistersPcAndStack : Obligations.InstructionsReadOnlyRegistersPcAndStack := by
  intro i s s' hs
  obtain ⟨t, h⟩ := exec_answers_next i s
  obtain ⟨t', h'⟩ := exec_answers_next i s'
  have he := exec_effect h
  have he' := exec_effect h'
  obtain ⟨hagree, hstack, hfault⟩ := exec_actedAlike hs h h'
  have hldI : ∀ nnn, i = .ldI nnn → t.I = t'.I := fun nnn hi => by
    subst hi
    exact ldI_same_I h h'
  have hcls : i = .cls → t.video = t'.video := fun hi => by
    subst hi
    exact cls_same_video h h'
  have hI : SameEffectOn State.I s s' t t' := by
    by_cases hi : ∃ nnn, i = .ldI nnn
    · obtain ⟨nnn, hi⟩ := hi
      exact .inr (hldI nnn hi)
    · have hi : ∀ nnn, i ≠ .ldI nnn := fun nnn e => hi ⟨nnn, e⟩
      exact .inl ⟨he.I_left hi, he'.I_left hi⟩
  have hvideo : SameEffectOn State.video s s' t t' := by
    by_cases hi : i = .cls
    · exact .inr (hcls hi)
    · exact .inl ⟨he.video hi, he'.video hi⟩
  exact ⟨t, t', h, h', hagree, hI, hldI, hvideo, hcls, hstack, hfault, he.runLoop, he'.runLoop⟩

end Sys2Proof.Machine
end

section
/-! Memory (20_memory.md R54, R57): the bytes a bulk write leaves, the placing of a fetch word, and that the canonical
form determines the list. -/

namespace Sys2Proof.Machine

open Sys2Proof.Claims

/-! ## Writing a sequence of bytes -/

/-- Reading any address after a sequence of bytes is written inside the array. -/
theorem Memory.byteAt_putAll {m : Memory} (hm : m.wf) (start : Nat) (bytes : List Byte)
    (hfits : start + bytes.length ≤ 4096) (a : Nat) : (m.putAll start bytes).byteAt a =
      if start ≤ a ∧ a < start + bytes.length then bytes.getD (a - start) 0 else m.byteAt a := by
  induction bytes generalizing m start with
  | nil =>
    rw [if_neg (by simp)]
    rfl
  | cons b bs ih =>
    have hfits : start + (bs.length + 1) ≤ 4096 := hfits
    have hput : (m.put start b).wf := Memory.put_wf hm b (show start ≤ 0xFFF by omega)
    rw [Memory.putAll, ih hput (start + 1) (by omega), Memory.byteAt_put hm, List.length_cons]
    by_cases hlater : start + 1 ≤ a ∧ a < start + 1 + bs.length
    · have hindex : a - start = a - (start + 1) + 1 := by omega
      rw [if_pos hlater, if_pos (by omega), hindex, List.getD_cons_succ]
    · rw [if_neg hlater]
      by_cases hfirst : a = start
      · rw [if_pos hfirst, if_pos (by omega), hfirst, Nat.sub_self, List.getD_cons_zero]
      · rw [if_neg hfirst, if_neg (by omega)]

/-- A bulk write that fits is made. -/
theorem memWriteBulk_of_le {bytes : List Byte} {start : Nat} (m : Memory) (h : start + bytes.length ≤ 4096) :
    memWriteBulk bytes start m = .ok (m.putAll start bytes) := if_neg (Nat.not_lt.mpr h)

/-- Settles O46: the bytes written and the canonical form by induction on the bytes. -/
theorem bulkWriteWritesExactlyItsBytes : Obligations.BulkWriteWritesExactlyItsBytes :=
  fun m bytes start hm => ⟨fun h => ⟨_, memWriteBulk_of_le m h, Memory.putAll_wf hm start bytes h,
    Memory.byteAt_putAll hm start bytes h⟩, fun h => if_pos h⟩

/-! ## The placing of a fetch word -/

/-- The word of sixteen table bits with the value of `w` is `w`. -/
theorem tableWord_toNat (w : Word) : tableWord 16 w.toNat = w := by
  rw [tableWord, Nat.mod_eq_of_lt w.isLt, BitVec.ofNat_toNat, BitVec.setWidth_eq]

/-- Where the pc can be fetched from, placing a word writes its two bytes there. -/
theorem withFetchWord_eq {s : State} (h : s.pc.toNat ≤ 0xFFE) (w : Word) :
    s.withFetchWord 16 w.toNat = { s with mem := s.mem.putAll s.pc.toNat (bytesOfWord w) } := by
  rw [State.withFetchWord, tableWord_toNat]
  exact if_neg (show ¬ s.pc.toNat + 1 > 0xFFF by omega)

/-- Settles O37: the two bytes placed are the ones the next fetch reads. -/
theorem placedWordIsFetched : Obligations.PlacedWordIsFetched := by
  intro s w hm hpc
  have hfits : s.pc.toNat + (bytesOfWord w).length ≤ 4096 := by
    show s.pc.toNat + 2 ≤ 4096
    omega
  have hbytes := Memory.byteAt_putAll hm s.pc.toNat (bytesOfWord w) hfits
  rw [withFetchWord_eq hpc]
  refine ⟨?fetched, Memory.putAll_wf hm s.pc.toNat (bytesOfWord w) hfits, rfl, fun a hne hne' => ?others⟩
  case fetched =>
    have hhi : (s.mem.putAll s.pc.toNat (bytesOfWord w)).byteAt s.pc.toNat = highByte w := by
      rw [hbytes, if_pos ⟨Nat.le_refl _, Nat.lt_add_of_pos_right Nat.two_pos⟩, Nat.sub_self]
      rfl
    have hlo : (s.mem.putAll s.pc.toNat (bytesOfWord w)).byteAt (s.pc.toNat + 1) = lowByte w := by
      rw [hbytes, if_pos ⟨Nat.le_succ _, Nat.lt_succ_self _⟩, Nat.add_sub_cancel_left]
      rfl
    rw [fetch_of_le]
    · simp only [hhi, hlo, wordOfBytes_bytes]
    · exact Nat.succ_le_succ hpc
  case others =>
    rw [hbytes, if_neg]
    show ¬ (s.pc.toNat ≤ a ∧ a < s.pc.toNat + 2)
    omega

/-! ## Equal contents are equal lists -/

/-- A canonical memory whose first listed address is `a` reads there what no memory listing only higher addresses
does. -/
theorem Memory.byteAt_cons_ne {a : Nat} {b : Byte} {m m' : Memory} (hm : Memory.wf ((a, b) :: m))
    (hm' : ∀ p ∈ m', a < p.1) : Memory.byteAt ((a, b) :: m) a ≠ m'.byteAt a := by
  obtain ⟨-, -, -, hb⟩ := Memory.wf_cons hm
  rw [Memory.byteAt_of_lt hm', Memory.byteAt, if_pos rfl]
  exact hb

/-- An address below the first listed one lies below every listed one. -/
theorem Memory.lt_of_lt_head {a c : Nat} {b : Byte} {m : Memory} (hm : Memory.wf ((c, b) :: m)) (h : a < c) :
    ∀ p ∈ (c, b) :: m, a < p.1 := by
  obtain ⟨-, hlt, -, -⟩ := Memory.wf_cons hm
  intro p hp
  rcases List.mem_cons.mp hp with rfl | hp
  · exact h
  · exact lt_trans h (hlt p hp)

/-- Settles O47, by induction on both lists: two lists that read alike start with the same entry, since the lower of two
first addresses would read differently, and their tails read alike again. -/
theorem canonicalMemoriesWithEqualBytesAreEqual : Obligations.CanonicalMemoriesWithEqualBytesAreEqual := by
  intro m
  induction m with
  | nil =>
    intro m' _ hm' h
    cases m' with
    | nil => rfl
    | cons p m' => exact absurd (h p.1).symm (Memory.byteAt_cons_ne hm' (by simp))
  | cons p m ih =>
    obtain ⟨a, b⟩ := p
    intro m' hm hm' h
    cases m' with
    | nil => exact absurd (h a) (Memory.byteAt_cons_ne hm (by simp))
    | cons q m' =>
      obtain ⟨a', b'⟩ := q
      obtain ⟨hwf, hlt, -, -⟩ := Memory.wf_cons hm
      obtain ⟨hwf', hlt', -, -⟩ := Memory.wf_cons hm'
      obtain hlow | rfl | hlow := Nat.lt_trichotomy a a'
      · exact absurd (h a) (Memory.byteAt_cons_ne hm (Memory.lt_of_lt_head hm' hlow))
      · have hb : b = b' := by simpa [Memory.byteAt] using h a
        have htail : ∀ c, Memory.byteAt m c = Memory.byteAt m' c := fun c => by
          by_cases hc : c = a
          · rw [hc, Memory.byteAt_of_lt hlt, Memory.byteAt_of_lt hlt']
          · simpa [Memory.byteAt, hc] using h c
        rw [hb, ih m' hwf hwf' htail]
      · exact absurd (h a').symm (Memory.byteAt_cons_ne hm' (Memory.lt_of_lt_head hm hlow))

end Sys2Proof.Machine
end

section
/-! Reset, boot and the two rates (70_reset_and_hazards.md R250 to R253; 60_exceptions.md R211, R215). -/

namespace Sys2Proof.Machine

open Sys2Proof.Claims

/-! ## The rates -/

/-- Settles O44: `cpt` is the integer quotient that rounds up. -/
theorem cyclesPerTickIsTheExactCeiling : Obligations.CyclesPerTickIsTheExactCeiling := by
  refine ⟨rfl, fun cpuHz timerHz hcpu htimer => ?_⟩
  obtain ⟨q, hq⟩ : ∃ q, cyclesPerTick cpuHz timerHz = q := ⟨_, rfl⟩
  have hlow : q * timerHz ≤ cpuHz + timerHz - 1 := hq ▸ Nat.div_mul_le_self _ _
  have hhigh : cpuHz + timerHz - 1 < q * timerHz + timerHz := hq ▸ Nat.lt_div_mul_add htimer
  have hpos : 1 ≤ q := hq ▸ Nat.div_pos (by omega) htimer
  rw [hq]
  refine ⟨hpos, by omega, ?_⟩
  rw [Nat.sub_mul]
  omega

/-- `cpt` is at least 1 for positive rates. -/
theorem one_le_cyclesPerTick {cpuHz timerHz : Nat} (hcpu : 0 < cpuHz) (htimer : 0 < timerHz) :
    1 ≤ cyclesPerTick cpuHz timerHz := by
  obtain ⟨-, hceiling⟩ := cyclesPerTickIsTheExactCeiling
  obtain ⟨hpos, -⟩ := hceiling cpuHz timerHz hcpu htimer
  exact hpos

/-! ## The reset state -/

/-- Settles O48: each field by evaluation; an address beyond the glyph table reads the default. -/
theorem resetStateIsAsListed : Obligations.ResetStateIsAsListed := by
  have hglyphs : Config.glyphTable.length = 80 := rfl
  refine ⟨rfl, rfl, rfl, rfl, ?regs, rfl, ?entries, rfl, rfl, clearVideo_cell, rfl, rfl, hglyphs, fun a => ?mem⟩
  case regs => exact fun r => Vector.getElem_replicate r.isLt
  case entries => exact fun k => Vector.getElem_replicate k.isLt
  case mem =>
    show Config.glyphTable.getD a 0 = _
    split
    · rfl
    · exact List.getD_eq_default _ _ (by omega)

/-! ## Boot -/

/-- After construction only the load is left to do. -/
theorem bootMemory_eq (image : Option (List Byte)) : bootMemory image = loadImage image [] := by
  rw [bootMemory, constructMemory_eq]

/-- Boot with a zero rate. -/
theorem boot_of_invalid {cpuHz timerHz : Nat} (image : Option (List Byte)) (h : configInvalid cpuHz timerHz) :
    boot cpuHz timerHz image = raiseFault (.configInvalid cpuHz timerHz) State.reset := if_pos h

/-- Boot with positive rates and an image that is refused. -/
theorem boot_of_load_error {cpuHz timerHz : Nat} {image : Option (List Byte)} {r : FaultRecord}
    (h : ¬ configInvalid cpuHz timerHz) (hload : loadImage image [] = .error r) :
    boot cpuHz timerHz image = raiseFault r State.reset := by
  rw [boot, if_neg h, bootMemory_eq, hload]

/-- Boot with positive rates and an image that is loaded. -/
theorem boot_of_load_ok {cpuHz timerHz : Nat} {image : Option (List Byte)} {m : Memory}
    (h : ¬ configInvalid cpuHz timerHz) (hload : loadImage image [] = .ok m) :
    boot cpuHz timerHz image = { State.reset with
      mem := m, cpt := cyclesPerTick cpuHz timerHz, perInstructionDelay := instructionDelay cpuHz } := by
  rw [boot, if_neg h, bootMemory_eq, hload]

/-- Positive rates are a valid configuration. -/
theorem not_configInvalid {cpuHz timerHz : Nat} (hcpu : 0 < cpuHz) (htimer : 0 < timerHz) :
    ¬ configInvalid cpuHz timerHz := by
  rintro (h | h) <;> omega

/-- An image of at most 3584 bytes is loaded at 0x200. -/
theorem loadImage_of_le {bytes : List Byte} (m : Memory) (h : bytes.length ≤ 3584) :
    loadImage (some bytes) m = .ok (m.putAll 0x200 bytes) := by
  have hfits : ¬ bytes.length > Config.maxProg := Nat.not_lt.mpr h
  rw [loadImage, if_neg hfits]
  exact memWriteBulk_of_le m (show 0x200 + bytes.length ≤ 4096 by omega)

/-- Settles O49: the load is a bulk write on the memory of the reset state. -/
theorem bootLoadsTheImage : Obligations.BootLoadsTheImage := by
  intro cpuHz timerHz bytes hcpu htimer hlen
  rw [boot_of_load_ok (not_configInvalid hcpu htimer) (loadImage_of_le [] hlen)]
  exact ⟨Memory.byteAt_putAll reset_mem_wf 0x200 bytes (by omega), rfl⟩

/-- A longer image is refused. -/
theorem loadImage_of_gt {bytes : List Byte} (m : Memory) (h : 3584 < bytes.length) :
    loadImage (some bytes) m = .error (.resImageTooLarge bytes.length) := if_pos h

/-- Settles O50: each refusal raises its fault on the reset state, and a halted block has no step. -/
theorem bootRefusesBadConfigurationAndImage : Obligations.BootRefusesBadConfigurationAndImage := by
  intro cpuHz timerHz image
  refine ⟨fun h => ?rates, fun hcpu htimer himage => ?missing, fun hcpu htimer bytes himage hlen => ?tooLarge,
    fun h t ht => ?noStep⟩
  case rates =>
    rw [boot_of_invalid image h]
    exact ⟨rfl, rfl⟩
  case missing =>
    subst himage
    rw [boot_of_load_error (not_configInvalid hcpu htimer) rfl]
    exact ⟨rfl, rfl⟩
  case tooLarge =>
    subst himage
    rw [boot_of_load_error (not_configInvalid hcpu htimer) (loadImage_of_gt [] hlen)]
    exact ⟨rfl, rfl⟩
  case noStep =>
    rw [step_of_halted h] at ht
    cases ht

end Sys2Proof.Machine
end

section
/-! The invariant of the reachable states: reset and every boot meet it, and the tick, the meanings, a fault entry and
the end of an iteration each keep it, so that every step does (10_state.md sections 3 to 9; 40_engine.md R114). -/

namespace Sys2Proof.Machine

open Sys2Proof.Claims

/-! ## Reset and boot -/

/-- Settles O51: each part by evaluation of the reset state, and every reset stack entry is 0. -/
theorem resetMeetsTheInvariant : Obligations.ResetMeetsTheInvariant where
  memory := reset_mem_wf
  counter := Nat.zero_le _
  tickPeriod := by decide
  faultStatus := rfl
  index := Nat.zero_le _
  entries := fun _ hk => absurd hk (Nat.not_lt_zero _)
  counterReach := by decide

/-- A fault entry keeps the invariant: a fault is recorded and the block is halted. -/
theorem inv_raiseFault {s : State} (r : FaultRecord) (h : Inv s) : Inv (raiseFault r s) :=
  { h with faultStatus := rfl }

/-- Settles O52: a refused boot is a fault entry on the reset state, an accepted one a load of it with a
positive period. -/
theorem bootMeetsTheInvariant : Obligations.BootMeetsTheInvariant := by
  intro cpuHz timerHz image
  by_cases hrates : configInvalid cpuHz timerHz
  · rw [boot_of_invalid image hrates]
    exact inv_raiseFault _ resetMeetsTheInvariant
  cases hload : loadImage image [] with
  | error r =>
    rw [boot_of_load_error hrates hload]
    exact inv_raiseFault r resetMeetsTheInvariant
  | ok m =>
    have hpos : 1 ≤ cyclesPerTick cpuHz timerHz := one_le_cyclesPerTick (by omega) (by omega)
    rw [boot_of_load_ok hrates hload]
    exact { resetMeetsTheInvariant with
      memory := loadImage_wf reset_mem_wf hload, counter := Nat.zero_le _, tickPeriod := hpos }

/-! ## The parts of a step -/

/-- The tick keeps the invariant. -/
theorem inv_tickIfDue {s : State} (h : Inv s) : Inv (tickIfDue s) := by
  by_cases hdue : s.cycleCounter = s.cpt
  · rw [tickIfDue_of_eq hdue]
    exact { h with counter := Nat.zero_le _ }
  · rwa [tickIfDue_of_ne hdue]

/-- After the tick there is room for one more count. -/
theorem tickIfDue_cycleCounter_lt {s : State} (h : Inv s) : (tickIfDue s).cycleCounter < (tickIfDue s).cpt := by
  have hcounter := h.counter
  have hperiod := h.tickPeriod
  by_cases hdue : s.cycleCounter = s.cpt
  · rw [tickIfDue_of_eq hdue]
    exact hperiod
  · rw [tickIfDue_of_ne hdue]
    omega

/-- A change of the pc to one in reach keeps the invariant. -/
theorem inv_pc {s : State} (h : Inv s) (a : Addr) (ha : a.toNat ≤ 0x10FE) : Inv { s with pc := a } :=
  { h with counterReach := ha }

/-- A push of a return address in reach keeps the invariant. -/
theorem inv_pushed {s : State} (h : Inv s) {v : Addr} (hv : v.toNat ≤ 0x1000) (hs : s.sp.val < 16) :
    Inv (pushed v s hs) := by
  refine { h with entries := fun k hk => ?_ }
  have hk : k.val < s.sp.val + 1 := hk
  simp only [pushed, Vector.getElem_set]
  split
  · exact hv
  · exact h.entries k (by omega)

/-- A pop keeps the invariant: the entries left are live before it. -/
theorem inv_popped {s : State} (h : Inv s) : Inv (popped s) :=
  { h with entries := fun k hk => h.entries k (Nat.lt_of_lt_of_le hk (Nat.sub_le _ _)) }

/-- The value of an increment from a pc that was fetched from. -/
theorem pc_add_toNat {a b : Addr} (ha : a.toNat ≤ 0xFFE) (hb : b.toNat ≤ 4) : (a + b).toNat = a.toNat + b.toNat := by
  rw [BitVec.toNat_add]
  omega

/-- An instruction whose word was fetched keeps the invariant: its increments and its return address are at most 0x1002
and 0x1000, its targets a 12-bit address, at most 0xFF above one, or a live entry. -/
theorem inv_effect {i : Instr} {s t : State} (h : Inv s) (hpc : s.pc.toNat ≤ 0xFFE) (he : Effect s i t) : Inv t := by
  have hnext : (s.pc + 2).toNat = s.pc.toNat + 2 := pc_add_toNat hpc (by decide)
  have hskip : (s.pc + 4).toNat = s.pc.toNat + 4 := pc_add_toNat hpc (by decide)
  have haddr (nnn : Addr12) : (addrOperand nnn).toNat ≤ 0xFFF := by
    have := nnn.isLt
    rw [addrOperand_toNat]
    omega
  cases he with
  | advances V I video hclass hV hI =>
    have hindex : I.toNat ≤ 0xFFF := by
      obtain ⟨nnn, -, rfl⟩ | rfl := hI
      · exact haddr nnn
      · exact h.index
    exact { h with index := hindex, counterReach := by rw [advance_pc, hnext]; omega }
  | skips c =>
    rw [skipIf_eq]
    exact inv_pc h _ (by split <;> omega)
  | jp nnn => exact inv_pc h _ (Nat.le_trans (haddr nnn) (by decide))
  | jpV0 nnn =>
    have hV0 := (s.readV 0).isLt
    have hnnn := nnn.isLt
    exact inv_pc h _ (by rw [offsetTarget_toNat]; omega)
  | call nnn hs =>
    exact inv_pc (inv_pushed h (by omega) hs) _ (Nat.le_trans (haddr nnn) (by decide))
  | ret hs =>
    exact inv_pc (inv_popped h) _
      (Nat.le_trans (h.entries ⟨s.sp.val - 1, by omega⟩ (Nat.sub_lt hs Nat.one_pos)) (by decide))
  | callFull | retEmpty => exact inv_raiseFault _ h

/-- The end of an iteration keeps the invariant when there is room for one more count. -/
theorem inv_endIteration {s : State} (h : Inv s) (hroom : s.cycleCounter < s.cpt) : Inv (endIteration s) := by
  unfold endIteration
  split
  · exact h
  · exact { h with counter := hroom }

/-- Settles O53: the tick keeps the invariant and makes room for one count; the fetch that faults enters a fault, and
the instruction fetched keeps the invariant and leaves the room. -/
theorem stepKeepsTheInvariant : Obligations.StepKeepsTheInvariant := by
  intro s t h hstep
  have htick : Inv (tickIfDue s) := inv_tickIfDue h
  obtain ⟨r, -, rfl⟩ | ⟨w, u, hfetch, hexec, rfl⟩ := step_next_cases hstep
  · exact inv_raiseFault r htick
  · have hpc : (tickIfDue s).pc.toNat ≤ 0xFFE := by
      rw [tickIfDue_pc]
      exact pc_le_of_fetch hfetch
    have he := exec_effect hexec
    obtain ⟨-, -, -, hcounter, hcpt, -⟩ := he.runLoop
    refine inv_endIteration (inv_effect htick hpc he) ?_
    rw [hcounter, hcpt]
    exact tickIfDue_cycleCounter_lt h

end Sys2Proof.Machine
end

section
/-! Runs: the cadence of the counter ticks (60_exceptions.md R213) and zeroed memory run to its end
(40_engine.md R115). -/

namespace Sys2Proof.Machine

open Sys2Proof.Claims

/-! ## Safe runs -/

/-- A safe run starts from a live block. -/
theorem live_of_safeRun {n : Nat} {s t : State} (h : SafeRun n s t) : s.halted = false := by
  obtain ⟨hrun, hlive⟩ := h
  cases n with
  | zero =>
    obtain rfl : s = t := Host.Outcome.next.inj hrun
    exact hlive
  | succ n =>
    obtain ⟨s', hstep, -⟩ := run_succ_inv hrun
    exact live_of_step hstep

/-- A safe run of one more iteration is a step that completes and a safe run after it. -/
theorem safeRun_succ_inv {n : Nat} {s t : State} (h : SafeRun (n + 1) s t) :
    ∃ s', step s = .next s' ∧ s'.halted = false ∧ SafeRun n s' t := by
  obtain ⟨s', hstep, hrun⟩ := run_succ_inv h.1
  have hrest : SafeRun n s' t := ⟨hrun, h.2⟩
  exact ⟨s', hstep, live_of_safeRun hrest, hrest⟩

/-- A step that completes and a safe run after it are a safe run of one more iteration. -/
theorem safeRun_succ {n : Nat} {s s' t : State} (hstep : step s = .next s') (h : SafeRun n s' t) :
    SafeRun (n + 1) s t := ⟨(run_next n hstep).trans h.1, h.2⟩

/-! ## The cadence of the ticks -/

/-- The cycle counter after a step that completed: one count, from 0 when a tick was due. -/
theorem step_cycleCounter {s t : State} (hstep : step s = .next t) (hlive : t.halted = false) :
    t.cycleCounter = (if s.cycleCounter = s.cpt then 1 else s.cycleCounter + 1) ∧ t.cpt = s.cpt := by
  obtain ⟨r, -, rfl⟩ | ⟨w, u, -, hexec, rfl⟩ := step_next_cases hstep
  · cases hlive
  · rw [endIteration_halted] at hlive
    obtain ⟨-, -, -, hcounter, hcpt, -⟩ := (exec_effect hexec).runLoop
    rw [endIteration_of_live hlive, countCycle_cycleCounter, countCycle_cpt, hcounter, hcpt, tickIfDue_cpt]
    refine ⟨?_, rfl⟩
    split
    · next hdue => rw [tickIfDue_of_eq hdue]
    · next hnot => rw [tickIfDue_of_ne hnot]

/-- The counters after a step, by whether a tick was due. -/
theorem step_counters_toNat {s t : State} (h : step s = .next t) :
    (s.cycleCounter = s.cpt → t.delay.toNat = s.delay.toNat - 1 ∧ t.sound.toNat = s.sound.toNat - 1) ∧
    (s.cycleCounter ≠ s.cpt → t.delay = s.delay ∧ t.sound = s.sound) := by
  obtain ⟨-, -, hstep⟩ := countersAreInvisibleToTheEngine
  exact hstep s t h

/-- The run-loop state and the counters of `t` are those of `s` after `k + 1` counts since a tick: every `cpt` counts
bring another one. -/
def Ticked (k : Nat) (s t : State) : Prop :=
  t.cycleCounter = k % s.cpt + 1 ∧ t.cpt = s.cpt ∧
    t.delay.toNat = s.delay.toNat - k / s.cpt ∧ t.sound.toNat = s.sound.toNat - k / s.cpt

/-- Fewer counts than `cpt` bring no tick. -/
theorem ticked_of_lt {k : Nat} {s t : State} (hk : k < s.cpt) (hcounter : t.cycleCounter = k + 1) (hcpt : t.cpt = s.cpt)
    (hdelay : t.delay = s.delay) (hsound : t.sound = s.sound) : Ticked k s t := by
  rw [Ticked, Nat.mod_eq_of_lt hk, Nat.div_eq_of_lt hk, hdelay, hsound]
  exact ⟨hcounter, hcpt, rfl, rfl⟩

/-- Counts after a tick, seen from before it. -/
theorem ticked_add_cpt {k : Nat} {s s' t : State} (hpos : 0 < s.cpt) (hcpt : s'.cpt = s.cpt)
    (hdelay : s'.delay.toNat = s.delay.toNat - 1) (hsound : s'.sound.toNat = s.sound.toNat - 1)
    (h : Ticked k s' t) : Ticked (k + s.cpt) s t := by
  rw [Ticked, hcpt, hdelay, hsound, Nat.sub_sub, Nat.sub_sub, Nat.add_comm 1] at h
  rwa [Ticked, Nat.add_mod_right, Nat.add_div_right k hpos]

/-- Counts after a step without a tick, seen from before it. -/
theorem ticked_of_no_tick {k : Nat} {s s' t : State} (hcpt : s'.cpt = s.cpt) (hdelay : s'.delay = s.delay)
    (hsound : s'.sound = s.sound) (h : Ticked k s' t) : Ticked k s t := by
  rwa [Ticked, hcpt, hdelay, hsound] at h

/-- From a cycle counter in 1..cpt, `n` more iterations add `n` to the count. -/
theorem ticked_of_safeRun {n k : Nat} {s t : State} (hk : s.cycleCounter = k + 1) (hle : s.cycleCounter ≤ s.cpt)
    (h : SafeRun n s t) : Ticked (k + n) s t := by
  induction n generalizing s k with
  | zero =>
    obtain rfl : s = t := Host.Outcome.next.inj h.1
    exact ticked_of_lt (by omega) hk rfl rfl rfl
  | succ n ih =>
    obtain ⟨s', hstep, hlive, hrest⟩ := safeRun_succ_inv h
    obtain ⟨hcounter, hcpt⟩ := step_cycleCounter hstep hlive
    obtain ⟨htick, hnoTick⟩ := step_counters_toNat hstep
    by_cases hdue : s.cycleCounter = s.cpt
    · obtain ⟨hdelay, hsound⟩ := htick hdue
      rw [if_pos hdue] at hcounter
      have hsum : k + (n + 1) = 0 + n + s.cpt := by omega
      rw [hsum]
      exact ticked_add_cpt (by omega) hcpt hdelay hsound (ih hcounter (by omega) hrest)
    · obtain ⟨hdelay, hsound⟩ := hnoTick hdue
      rw [if_neg hdue] at hcounter
      have hsum : k + (n + 1) = s.cycleCounter + n := by omega
      rw [hsum]
      exact ticked_of_no_tick hcpt hdelay hsound (ih hcounter (by omega) hrest)

/-- Settles O45: the first iteration makes the count 1 without a tick, and the rest add to it. -/
theorem ticksFollowTheInstructionCount : Obligations.TicksFollowTheInstructionCount := by
  intro n s t hn hzero hperiod h
  obtain ⟨m, rfl⟩ : ∃ m, n = m + 1 := ⟨n - 1, by omega⟩
  have hnot : s.cycleCounter ≠ s.cpt := by omega
  obtain ⟨s', hstep, hlive, hrest⟩ := safeRun_succ_inv h
  obtain ⟨hcounter, hcpt⟩ := step_cycleCounter hstep hlive
  obtain ⟨-, hnoTick⟩ := step_counters_toNat hstep
  obtain ⟨hdelay, hsound⟩ := hnoTick hnot
  rw [if_neg hnot, hzero] at hcounter
  have hticked : Ticked (0 + m) s' t := ticked_of_safeRun hcounter (by omega) hrest
  rw [Nat.zero_add] at hticked
  exact ticked_of_no_tick hcpt hdelay hsound hticked

/-! ## Zeroed memory -/

/-- A step at two zero bytes inside the array is a no-op: the tick, an advance and the count. -/
theorem step_of_zero_word {s : State} (hs : s.halted = false) (hpc : s.pc.toNat ≤ 0xFFE)
    (hhi : s.mem.byteAt s.pc.toNat = 0) (hlo : s.mem.byteAt (s.pc.toNat + 1) = 0) :
    step s = .next (countCycle (advance (tickIfDue s))) := by
  have hfetch : fetch s = .ok 0x0000#16 := by
    rw [fetch_of_le (Nat.succ_le_succ hpc), hhi, hlo]
    rfl
  have hexec : exec (decodeWord 0x0000#16) (tickIfDue s) = .next (advance (tickIfDue s)) := rfl
  have hlive : (advance (tickIfDue s)).halted = false := (tickIfDue_halted s).trans hs
  rw [step_of_fetch_ok hs hfetch hexec, endIteration_of_live hlive]

/-- Settles O55, by induction on the number of words left: each step is a no-op that moves the pc by 2, and at 0x1000
the fetch faults. -/
theorem zeroedMemoryRunsToItsEndAndFaults : Obligations.ZeroedMemoryRunsToItsEndAndFaults := by
  intro s n
  induction n generalizing s with
  | zero =>
    intro hs hpc _
    have hfetch : fetch s = .error (.execMemBounds 0x1000) := by
      rw [fetch_of_gt (by omega), if_neg (by omega), show s.pc.toNat = 0x1000 from hpc]
    exact ⟨s, _, ⟨rfl, hs⟩, hpc, rfl, rfl, rfl, rfl, rfl, rfl, run_next 0 (step_of_fetch_error hs hfetch), rfl, rfl⟩
  | succ n ih =>
    intro hs hpc hzero
    have hstep := step_of_zero_word hs (by omega) (hzero _ (by omega) (by omega)) (hzero _ (by omega) (by omega))
    have hpc' : (countCycle (advance (tickIfDue s))).pc.toNat = s.pc.toNat + 2 := by
      rw [countCycle_pc, advance_pc, tickIfDue_pc]
      exact pc_add_toNat (by omega) (by decide)
    have hmem' : (countCycle (advance (tickIfDue s))).mem = s.mem := tickIfDue_mem s
    obtain ⟨t, u, hsafe, hend, hV, hI, hstack, hsp, hmem, hvideo, hrun, hhalted, hfault⟩ :=
      ih (countCycle (advance (tickIfDue s))) ((tickIfDue_halted s).trans hs) (by omega) fun a ha ha' => by
        rw [hmem']
        exact hzero a (by omega) ha'
    exact ⟨t, u, safeRun_succ hstep hsafe, hend, hV.trans (tickIfDue_V s), hI.trans (tickIfDue_I s),
      hstack.trans (tickIfDue_stack s), hsp.trans (tickIfDue_sp s), hmem.trans hmem', hvideo.trans (tickIfDue_video s),
      (run_next _ hstep).trans hrun, hhalted, hfault⟩

end Sys2Proof.Machine
end
